-- ==== Sys2Proof/Word.lean ====
section
/-! DEFINITION. The word types of the block: bytes, buffer indices on the interface, transition words and command words. -/

namespace Sys2Proof

/-- An unsigned 8-bit value (00_scope.md R9, 20_memory.md R47). -/
abbrev Byte := BitVec 8

/-- A 9-bit index as READ_RAW and VIEW_DATA present it (20_memory.md R40, 30_encoding.md R65). -/
abbrev Index := BitVec 9

/-- Format TW: `{state[2:0], b[7:0]}` (30_encoding.md R61). -/
abbrev TransitionWord := BitVec 11

/-- Format CW: `{op[2:0], arg[8:0]}` (30_encoding.md R65). -/
abbrev CommandWord := BitVec 12

end Sys2Proof
end

