-- ==== Sys2Proof/Config.lean ====
section
/-! DEFINITION. The implementation parameters of 00_scope.md R5, their well-formedness (R6), and the free values. -/

namespace Sys2Proof

/-- Message kinds (30_encoding.md R69): the explicit "unrecognized" outcome, and the kinds of a type table in the
table's fixed order. A table holds at most 7 kinds, so the enumeration is closed (log entry 16). -/
inductive Kind where
  | unknown
  | listed (n : Fin 7)
deriving DecidableEq, Repr

/-- The kinds of the default table: INIT, POLL, SET, GET (30_encoding.md R69, log entry 2). -/
abbrev Kind.init : Kind := .listed 0
abbrev Kind.poll : Kind := .listed 1
abbrev Kind.set : Kind := .listed 2
abbrev Kind.get : Kind := .listed 3

/-- What the block does to its state when an append overflows (00_scope.md R5, 60_exceptions.md R141). -/
inductive OvfPolicy where
  | hold
  | toIdle
deriving DecidableEq, Repr

/-- The configuration record of 00_scope.md R5. -/
structure Config where
  /-- `C`: buffer capacity in bytes. -/
  capacity  : Nat
  /-- `PREAMBLE` -/
  preamble  : Byte
  /-- `START` -/
  start     : Byte
  /-- `STOP` -/
  stop      : Byte
  /-- `ESCAPE` -/
  escape    : Byte
  /-- `CURSOR_W`: width of the cursor register in bits. -/
  cursorW   : Nat
  /-- `OVF_POLICY` -/
  ovfPolicy : OvfPolicy
  /-- `TYPE_TABLE`: finite map from type byte to the position of its kind in the table's fixed order of kinds. -/
  typeTable : List (Byte × Fin 7)
deriving DecidableEq, Repr

/-- 00_scope.md R6 (a): the four constants are pairwise distinct. -/
def Config.distinct (c : Config) : Bool :=
  c.preamble != c.start && c.preamble != c.stop && c.preamble != c.escape &&
  c.start != c.stop && c.start != c.escape && c.stop != c.escape

/-- 00_scope.md R6 (d): no byte has two kinds. -/
def Config.tableOk (c : Config) : Bool :=
  c.typeTable.all fun e => c.typeTable.all fun f => e.1 != f.1 || e.2 == f.2

/-- A well-formed configuration: 00_scope.md R6 (a) to (d). -/
def Config.wf (c : Config) : Bool :=
  c.distinct && decide (6 ≤ c.capacity) && decide (c.capacity ≤ 2 ^ c.cursorW - 1) && c.tableOk

/-- The default configuration of 00_scope.md R5. The type table is PRESUMED (R5 marks it as general knowledge, not in
the source; log entry 2, unsafe), and the policy is the spec's default HOLD (log entry 3). -/
def Config.default : Config where
  capacity  := 258
  preamble  := 0xFF
  start     := 0x02
  stop      := 0x03
  escape    := 0x10
  cursorW   := 9
  ovfPolicy := .hold
  typeTable := [(0x49, 0), (0x50, 1), (0x54, 2), (0x52, 3)]

/-- FREE VALUE (log entry 9): the byte that buffer position `i` holds at launch (10_state.md R23, "a draw at launch
(any value)"). -/
opaque Config.launchByte (i : Nat) : Byte

/-- FREE VALUE (log entry 8): the `n`-th draw of a run, the unspecified byte that READ_RAW returns at a stale or
out-of-range index (20_memory.md R44, 41_view.md R111). -/
opaque Config.freeByte (n : Nat) : Byte

/-- FREE VALUE (log entry 13): what a view read gives at an index that names no byte (20_memory.md R40, R44). -/
opaque Config.noByte (i : Nat) : Byte

/-- FREE VALUE (log entry 14): the literal that a collapse takes after a raw data region that ends in an unpaired ESCAPE
(41_view.md R115 reads `r[j+1]` there), for each such region. -/
opaque Config.pastRegion (raw : List Byte) : Byte

/-- FREE VALUE (log entry 22): the raw data region that a view finds where `frame_valid = 1` and the cursor is below 6, so
that 41_view.md R114 names no region (20_memory.md R55), for each cursor and each contents of the buffer. -/
opaque Config.shortRegion (cursor : Nat) (buf : List Byte) : List Byte

/-- FREE VALUE (log entry 17): what an output port drives where the spec leaves it unspecified (41_view.md R110, R111,
R117), for the `n`-th sample of port number `port`. -/
opaque Config.undriven (port n : Nat) : Nat

end Sys2Proof
end

