-- ==== Sys2Proof/Syntax.lean ====
section
/-! DEFINITION. The instructions: one constructor for each row of spec/opcode_table.json, in the table's order. -/

namespace Sys2Proof

/-- Byte classes, the columns of the transition table (30_encoding.md R60). -/
inductive ByteClass where
  | pre | stx | etx | dle | other
deriving DecidableEq, Repr

/-- The rows of the transition-word decode (30_encoding.md R62), in the order they are tried. -/
inductive Row where
  | idlePre | idleIgn | attnPre | attnAbort | startStx | startAbort | addrAcc | typeAcc
  | dataEtx | dataDle | dataAcc | escLit | rsvd
deriving DecidableEq, Repr

/-- One instruction. The first thirteen are the transitions a FEED may select (format TW, 40_process.md R81 to R93; a row
whose condition is one byte value has no operand), the last eight the transactions (format CW, 30_encoding.md R71). -/
inductive Instr where
  /-- FEED_IDLE.PRE, R81 -/
  | feedIdlePre
  /-- FEED_IDLE.IGN, R82 -/
  | feedIdleIgn (b : Byte)
  /-- FEED_ATTN.PRE, R83 -/
  | feedAttnPre
  /-- FEED_ATTN.ABORT, R84 -/
  | feedAttnAbort (b : Byte)
  /-- FEED_START.STX, R85 -/
  | feedStartStx
  /-- FEED_START.ABORT, R86 -/
  | feedStartAbort (b : Byte)
  /-- FEED_ADDR.ACC, R87 -/
  | feedAddrAcc (b : Byte)
  /-- FEED_TYPE.ACC, R88 -/
  | feedTypeAcc (b : Byte)
  /-- FEED_DATA.ETX, R89 -/
  | feedDataEtx
  /-- FEED_DATA.DLE, R90 -/
  | feedDataDle
  /-- FEED_DATA.ACC, R91 -/
  | feedDataAcc (b : Byte)
  /-- FEED_ESC.LIT, R92 -/
  | feedEscLit (b : Byte)
  /-- FEED_RSVD, R93 -/
  | feedRsvd (b : Byte)
  /-- NOP, R131 -/
  | nop
  /-- FEED, R80 -/
  | feed (b : Byte)
  /-- RESET, R130 -/
  | reset
  /-- READ_RAW, R111 -/
  | readRaw (i : Index)
  /-- VIEW_ADDR, R112 -/
  | viewAddr
  /-- VIEW_TYPE, R113 -/
  | viewType
  /-- VIEW_DLEN, R116 -/
  | viewDlen
  /-- VIEW_DATA, R117 -/
  | viewData (k : Index)
deriving DecidableEq, Repr

/-- A word of one of the two formats of the opcode table. The formats overlap as numbers, so a word carries its format. -/
inductive TableWord where
  | tw (w : TransitionWord)
  | cw (w : CommandWord)
deriving DecidableEq, Repr

end Sys2Proof
end

