-- ==== Sys2Proof/WellFormed.lean ====
section
/-! DEFINITION. When an instruction is well-formed: its byte operand meets its row's byte condition (30_encoding.md R62). -/

namespace Sys2Proof

/-- A row instruction whose byte an earlier row of the same state takes is no instruction of its own: that byte's word
decodes to the earlier row (30_encoding.md R62, "the first row whose condition holds"). -/
def Instr.wf (c : Config) : Instr → Bool
  | .feedIdlePre => true
  | .feedIdleIgn b => b != c.preamble
  | .feedAttnPre => true
  | .feedAttnAbort b => b != c.preamble
  | .feedStartStx => true
  | .feedStartAbort b => b != c.start
  | .feedAddrAcc _ => true
  | .feedTypeAcc _ => true
  | .feedDataEtx => true
  | .feedDataDle => true
  | .feedDataAcc b => b != c.stop && b != c.escape
  | .feedEscLit _ => true
  | .feedRsvd _ => true
  | .nop => true
  | .feed _ => true
  | .reset => true
  | .readRaw _ => true
  | .viewAddr => true
  | .viewType => true
  | .viewDlen => true
  | .viewData _ => true

end Sys2Proof
end

