-- ==== Sys2Proof/Decode.lean ====
section
/-! DEFINITION. Byte classes, the decoders of transition words and command words, and the encoder.
Transition words: 30_encoding.md R60 to R62. Command words: R65 to R67. -/

namespace Sys2Proof

/-- `Class(b)` of 30_encoding.md R60. -/
def classOf (c : Config) (b : Byte) : ByteClass :=
  if b = c.preamble then .pre
  else if b = c.start then .stx
  else if b = c.stop then .etx
  else if b = c.escape then .dle
  else .other

/-! ### Transition words -/

/-- `TW = {s, b}` (30_encoding.md R61). -/
def makeTW (s : BitVec 3) (b : Byte) : TransitionWord := s ++ b

/-- Bits 10:8 of a transition word, the state code. -/
def twState (w : TransitionWord) : BitVec 3 := w.extractLsb' 8 3

/-- Bits 7:0 of a transition word, the fed byte. -/
def twByte (w : TransitionWord) : Byte := w.extractLsb' 0 8

/-- TW decoding (30_encoding.md R62): the first row whose condition holds. Total. -/
def decodeRow (c : Config) (w : TransitionWord) : Row :=
  match (twState w).toNat, classOf c (twByte w) with
  | 0, .pre => .idlePre
  | 0, _    => .idleIgn
  | 1, .pre => .attnPre
  | 1, _    => .attnAbort
  | 2, .stx => .startStx
  | 2, _    => .startAbort
  | 3, _    => .addrAcc
  | 4, _    => .typeAcc
  | 5, .etx => .dataEtx
  | 5, .dle => .dataDle
  | 5, _    => .dataAcc
  | 6, _    => .escLit
  | _, _    => .rsvd

/-- The instruction that stands for a row and the byte fed to it. -/
def Row.instr : Row → Byte → Instr
  | .idlePre, _ => .feedIdlePre
  | .idleIgn, b => .feedIdleIgn b
  | .attnPre, _ => .feedAttnPre
  | .attnAbort, b => .feedAttnAbort b
  | .startStx, _ => .feedStartStx
  | .startAbort, b => .feedStartAbort b
  | .addrAcc, b => .feedAddrAcc b
  | .typeAcc, b => .feedTypeAcc b
  | .dataEtx, _ => .feedDataEtx
  | .dataDle, _ => .feedDataDle
  | .dataAcc, b => .feedDataAcc b
  | .escLit, b => .feedEscLit b
  | .rsvd, b => .feedRsvd b

/-- The row instruction a transition word spells. -/
def decodeTW (c : Config) (w : TransitionWord) : Instr := (decodeRow c w).instr (twByte w)

/-- The rows of spec/opcode_table.json with their `match` and `mask` at the default constants, in priority order. -/
def rowTable : List (Row × TransitionWord × TransitionWord) :=
  [(.idlePre, 0x0FF, 0x7FF), (.idleIgn, 0x000, 0x700), (.attnPre, 0x1FF, 0x7FF), (.attnAbort, 0x100, 0x700),
   (.startStx, 0x202, 0x7FF), (.startAbort, 0x200, 0x700), (.addrAcc, 0x300, 0x700)] ++
  [(.typeAcc, 0x400, 0x700), (.dataEtx, 0x503, 0x7FF), (.dataDle, 0x510, 0x7FF), (.dataAcc, 0x500, 0x700),
   (.escLit, 0x600, 0x700), (.rsvd, 0x700, 0x700)]

/-- The row the printed table selects for a word: the first whose masked bits match. -/
def tableRow (w : TransitionWord) : Option Row :=
  (rowTable.find? fun r => w &&& r.2.2 == r.2.1).map Prod.fst

/-! ### Command words -/

/-- Why a command word spells no transaction (30_encoding.md R67). -/
inductive ReservedWord where
  /-- FEED with `arg[8] = 1`. -/
  | feedArgBit8
  /-- NOP, RESET, VIEW_ADDR, VIEW_TYPE or VIEW_DLEN (by its `op`) with `arg ≠ 0`. -/
  | argNotZero (op : BitVec 3)
deriving DecidableEq, Repr

/-- Bits 11:9 of a command word (30_encoding.md R65). -/
def cwOp (w : CommandWord) : BitVec 3 := w.extractLsb' 9 3

/-- Bits 8:0 of a command word (30_encoding.md R65). -/
def cwArg (w : CommandWord) : Index := w.extractLsb' 0 9

/-- `arg[8]` of a command word, which a FEED keeps 0. -/
def cwArgBit8 (w : CommandWord) : BitVec 1 := w.extractLsb' 8 1

/-- `arg[7:0]` of a command word, the byte of a FEED. -/
def cwByte (w : CommandWord) : Byte := w.extractLsb' 0 8

/-- A transaction without an operand: its `arg` must be 0. -/
def noOperand (w : CommandWord) (i : Instr) : Except ReservedWord Instr :=
  if cwArg w = 0 then .ok i else .error (.argNotZero (cwOp w))

/-- The command-word decoder (30_encoding.md R66, R67). Total; a reserved word is rejected by name. -/
def decodeCW (w : CommandWord) : Except ReservedWord Instr :=
  match (cwOp w).toNat with
  | 0 => noOperand w .nop
  | 1 => if cwArgBit8 w = 0 then .ok (.feed (cwByte w)) else .error .feedArgBit8
  | 2 => noOperand w .reset
  | 3 => .ok (.readRaw (cwArg w))
  | 4 => noOperand w .viewAddr
  | 5 => noOperand w .viewType
  | 6 => noOperand w .viewDlen
  | _ => .ok (.viewData (cwArg w))

/-- The decoder of both formats. -/
def decode (c : Config) : TableWord → Except ReservedWord Instr
  | .tw w => .ok (decodeTW c w)
  | .cw w => decodeCW w

/-! ### The encoder -/

/-- `CW = {op, arg}` (30_encoding.md R65). -/
def makeCW (op : BitVec 3) (arg : Index) : CommandWord := op ++ arg

/-- The word of an instruction, from the tables of 30_encoding.md R62 and R66. -/
def encode (c : Config) : Instr → TableWord
  | .feedIdlePre => .tw (makeTW 0 c.preamble)
  | .feedIdleIgn b => .tw (makeTW 0 b)
  | .feedAttnPre => .tw (makeTW 1 c.preamble)
  | .feedAttnAbort b => .tw (makeTW 1 b)
  | .feedStartStx => .tw (makeTW 2 c.start)
  | .feedStartAbort b => .tw (makeTW 2 b)
  | .feedAddrAcc b => .tw (makeTW 3 b)
  | .feedTypeAcc b => .tw (makeTW 4 b)
  | .feedDataEtx => .tw (makeTW 5 c.stop)
  | .feedDataDle => .tw (makeTW 5 c.escape)
  | .feedDataAcc b => .tw (makeTW 5 b)
  | .feedEscLit b => .tw (makeTW 6 b)
  | .feedRsvd b => .tw (makeTW 7 b)
  | .nop => .cw (makeCW 0 0)
  | .feed b => .cw (makeCW 1 ((0 : BitVec 1) ++ b))
  | .reset => .cw (makeCW 2 0)
  | .readRaw i => .cw (makeCW 3 i)
  | .viewAddr => .cw (makeCW 4 0)
  | .viewType => .cw (makeCW 5 0)
  | .viewDlen => .cw (makeCW 6 0)
  | .viewData k => .cw (makeCW 7 k)

/-! ### The opcode table's words as plain numbers -/

/-- Which format a number of the opcode table is read in (DESIGN CHOICE, log entry 12). The two formats overlap. A width
of 11 bits is a transition word and of 12 bits a command word; where the width is only given in whole bytes, a number that
is a command word is read as one, and a number below 0x800 that is a reserved command word as a transition word. -/
def tableWordOf (nbits w : Nat) : Option TableWord :=
  if nbits = 11 then (if w < 0x800 then some (.tw (BitVec.ofNat 11 w)) else none)
  else if w < 0x1000 then
    match decodeCW (BitVec.ofNat 12 w) with
    | .ok _ => some (.cw (BitVec.ofNat 12 w))
    | .error _ => if nbits ≠ 12 ∧ w < 0x800 then some (.tw (BitVec.ofNat 11 w)) else none
  else none

/-- The instruction that the decoder reads from a table word, at the default constants (the table's own). -/
def decodeTableWord (nbits w : Nat) : Option Instr :=
  match tableWordOf nbits w with
  | some t => (decode Config.default t).toOption
  | none => none

end Sys2Proof
end

