-- ==== Sys2Proof/Machine/State.lean ====
section
/-! DEFINITION. The state of the block as plain data (10_state.md R20), the reasons a step can stop, and the reset state. -/

namespace Sys2Proof.Machine

/-- DecoderState, exactly seven values (10_state.md R21): the reserved code 111 is none of them (30_encoding.md R68). -/
inductive DecoderState where
  | idle | attn | start | addr | type | data | escape
deriving DecidableEq, Repr

/-- FEED responses (30_encoding.md R70). Three constructors: code 11 is never driven (R74). -/
inductive Res where
  | listening | complete | overflow
deriving DecidableEq, Repr

/-- What a transaction returns to the host (30_encoding.md R71, the column "response"). -/
inductive Reply where
  /-- RESET and NOP have no response. -/
  | nothing
  | response (r : Res)
  | byte (b : Byte)
  | typeKind (t : Byte) (k : Kind)
  | length (n : Nat)
  | data (b : Option Byte)
deriving DecidableEq, Repr

/-- The buffer: the listed bytes by index, indices strictly rising. An index that is not listed has not been written. -/
abbrev Memory := List Host.Cell

/-- Reasons a step stops with a fault. There is none: the block's one error, BufferOverflow, is a FEED's response
(60_exceptions.md R140, R145), and a read at an index that names no byte gives an unspecified one (20_memory.md R44; log
entry 13). -/
inductive Fault where
deriving DecidableEq, Repr

/-- Reasons a step is refused. All are safe: the model stops where the spec gives no meaning. -/
inductive Refusal where
  /-- `exec` has no meaning for the instruction yet. Raised by exec's arms only. Safe. -/
  | notModelled (mnemonic : String)
  /-- A view transaction with `frame_valid = 0`. Raised by VIEW_ADDR, VIEW_TYPE, VIEW_DLEN and VIEW_DATA, as 41_view.md
  R110 says. Safe (log entry 11). -/
  | viewWithoutFrame
  /-- A FEED before the first RESET. Raised by FEED and its rows, as 70_reset_and_hazards.md R161 says. Safe (log entry 10). -/
  | feedBeforeReset
  /-- A row instruction that is not the row 30_encoding.md R62 selects for the block's state and the byte. Raised by the
  thirteen row instructions (log entry 5), and by FEED_RSVD always: no state of the model selects it (30_encoding.md R68,
  40_process.md R93; log entry 4). Safe. -/
  | rowNotSelected
  /-- A reserved command word at the head of the host's queue (30_encoding.md R67). Raised by `step`. Safe. -/
  | reservedCommandWord (why : ReservedWord)
  /-- An ill-formed configuration (00_scope.md R6). Raised by `step`. Safe (log entry 15). -/
  | illFormedConfig
deriving DecidableEq, Repr

/-- The state. The first six fields after `cfg` are the block's whole state (10_state.md R20); the last four are the
model's own. -/
structure State where
  /-- The parameters the block was built with (00_scope.md R5). Nothing writes them (log entry 1). -/
  cfg        : Config
  /-- `state[2:0]` (10_state.md R21). -/
  state      : DecoderState
  /-- `cursor` (10_state.md R22), a register of `cfg.cursorW` bits: every write truncates (log entry 13). -/
  cursor     : Nat
  /-- `buf[0 .. C-1]` (10_state.md R23). -/
  buf        : Memory
  /-- `frame_valid` (10_state.md R24). -/
  frameValid : Bool
  /-- `res_valid` (10_state.md R25). -/
  resValid   : Bool
  /-- `res_code` (10_state.md R25). -/
  resCode    : Res
  /-- Whether a RESET has happened since power-up (70_reset_and_hazards.md R161, R162; log entry 10). -/
  resetSeen  : Bool
  /-- The number of the next draw (log entry 8). -/
  draws      : Nat
  /-- The command words the host has still to issue, oldest first (log entry 6). -/
  inbox      : List CommandWord
  /-- What the host got from the last transaction (log entry 7). -/
  out        : Reply
deriving DecidableEq, Repr

/-- The reset state of 70_reset_and_hazards.md R160 for a block built with parameters `c`. The buffer is unspecified: no
byte is listed. -/
def State.resetWith (c : Config) : State where
  cfg        := c
  state      := .idle
  cursor     := 0
  buf        := []
  frameValid := false
  resValid   := false
  resCode    := .listening
  resetSeen  := true
  draws      := 0
  inbox      := []
  out        := .nothing

/-- The machine right after reset, at the default configuration. -/
def State.reset : State := State.resetWith Config.default

end Sys2Proof.Machine
end

