-- ==== Sys2Proof/Machine/Ops.lean ====
section
/-! DEFINITION. The named operations over the buffer and the registers: MemRead, MemWrite, Clear, Append
(20_memory.md R41 to R43), draws (R44), and the one exception outcome (60_exceptions.md R141). -/

namespace Sys2Proof.Machine

/-! ### The buffer as a list of cells -/

/-- The byte listed at an index; none where nothing has been written. -/
def Memory.read : Memory → Nat → Option Byte
  | [], _ => none
  | (a, v) :: m, i => if a = i then some v else Memory.read m i

/-- Write a byte at an index, keeping the indices strictly rising. -/
def Memory.write : Memory → Nat → Byte → Memory
  | [], i, b => [(i, b)]
  | (a, v) :: m, i, b =>
    if i < a then (i, b) :: (a, v) :: m
    else if i = a then (i, b) :: m
    else (a, v) :: Memory.write m i b

/-- The canonical form: the first listed index is at least `lo`, and the indices rise strictly. -/
def Memory.risingFrom : Nat → Memory → Bool
  | _, [] => true
  | lo, (a, _) :: m => decide (lo ≤ a) && Memory.risingFrom (a + 1) m

/-- The canonical form of a buffer: indices strictly rising. (No entry can equal what an unlisted index reads as, since
that is no value; log entry 9.) -/
def Memory.wf (m : Memory) : Bool := Memory.risingFrom 0 m

/-- The byte that buffer position `i` holds: what was last written there, or, where nothing has been written, its draw
at launch (10_state.md R23). -/
def State.byteAt (s : State) (i : Nat) : Byte := (s.buf.read i).getD (Config.launchByte i)

/-- The `n` bytes from position `i` on. -/
def State.bytesFrom (s : State) : Nat → Nat → List Byte
  | _, 0 => []
  | i, n + 1 => s.byteAt i :: s.bytesFrom (i + 1) n

/-- `MemRead(i, 1)` (20_memory.md R41): none where `i` names no byte. -/
def memRead (i : Nat) (s : State) : Option Byte :=
  if i < s.cfg.capacity then some (s.byteAt i) else none

/-- The byte that a view reads at index `i`: a free value where `i` names no byte (log entry 13). -/
def viewByte (s : State) (i : Nat) : Byte := (memRead i s).getD (Config.noByte i)

/-- The `n` bytes that a view reads from index `i` on. -/
def viewBytes (s : State) : Nat → Nat → List Byte
  | _, 0 => []
  | i, n + 1 => viewByte s i :: viewBytes s (i + 1) n

/-- `MemWrite(i, 1, v)` (20_memory.md R41): none where `i` names no byte. -/
def memWrite (i : Nat) (v : Byte) (s : State) : Option State :=
  if i < s.cfg.capacity then some { s with buf := s.buf.write i v } else none

/-! ### The registers -/

/-- Write the cursor register, CURSOR_W bits wide (10_state.md R22). -/
def setCursor (n : Nat) (s : State) : State := { s with cursor := n % 2 ^ s.cfg.cursorW }

/-- `state <- S` (00_scope.md R10). -/
def setState (d : DecoderState) (s : State) : State := { s with state := d }

/-- `Clear()` (20_memory.md R42): the array is not written. -/
def clear (s : State) : State := setCursor 0 s

/-- How an append ends. -/
inductive Appended where
  | ok (s : State)
  /-- `raise BufferOverflow()` (60_exceptions.md R140). -/
  | overflow
deriving DecidableEq, Repr

/-- `Append(b)` (20_memory.md R43): the capacity check comes before any write. "Writing past `C` is refused" (10_state.md
R30), so a cursor above C, which no run reaches, overflows too (log entry 13). -/
def append (b : Byte) (s : State) : Appended :=
  match memWrite s.cursor b s with
  | some t => .ok (setCursor (s.cursor + 1) t)
  | none => .overflow

/-- `draw()` (20_memory.md R44): the next unspecified byte, fresh each time. -/
def draw (s : State) : Byte × State := (Config.freeByte s.draws, { s with draws := s.draws + 1 })

/-! ### The exception -/

/-- The state after BufferOverflow, before the response is written (60_exceptions.md R141): nothing is appended, and
OVF_POLICY decides. There is no handler, no saved state and no return (R148); recovery is RESET. -/
def takeOverflow (s : State) : State :=
  match s.cfg.ovfPolicy with
  | .hold => s
  | .toIdle => setState .idle (clear s)

/-! ### Replies -/

/-- Hand the host a transaction's response. -/
def reply (r : Reply) (s : State) : State := { s with out := r }

end Sys2Proof.Machine
end

