-- ==== Sys2Proof/Machine/Flags.lean ====
section
/-! DEFINITION. The flags: `frame_valid` (10_state.md R24) and the response register (R25). -/

namespace Sys2Proof.Machine

/-- `res_code[1:0]` (30_encoding.md R70). -/
def resCodeBits : Res → BitVec 2
  | .listening => 0
  | .complete => 1
  | .overflow => 2

/-- The end of every FEED (40_process.md R80): `frame_valid <- (res = COMPLETE)`, the response register, and the
response to the host. -/
def finishFeed (r : Res) (s : State) : State :=
  { s with frameValid := decide (r = .complete), resValid := true, resCode := r, out := .response r }

/-- `res_valid <- 0`, all that an idle cycle writes (42_control.md R131). -/
def dropResValid (s : State) : State := { s with resValid := false }

/-- The flags of a RESET (42_control.md R130). -/
def clearFlags (s : State) : State := { s with frameValid := false, resValid := false, resCode := .listening }

end Sys2Proof.Machine
end

