-- ==== Sys2Proof/Machine/Control.lean ====
section
/-! DEFINITION. The control transactions RESET and NOP (42_control.md). There is no other (R133). -/

namespace Sys2Proof.Machine

/-- RESET (R130). The buffer is not written. -/
def execReset (s : State) : Host.Outcome State Fault Refusal :=
  .next (reply .nothing { clearFlags (clear (setState .idle s)) with resetSeen := true })

/-- NOP (R131): an idle cycle. -/
def execNop (s : State) : Host.Outcome State Fault Refusal := .next (reply .nothing (dropResValid s))

end Sys2Proof.Machine
end

