-- ==== Sys2Proof/Machine/Operands.lean ====
section
/-! DEFINITION. What transactions compute from their operands and the buffer: the state code and the transition word
(30_encoding.md R61), indices (R65), the raw data region and its collapse (41_view.md R114, R115), the kind of a type
byte (R113). -/

namespace Sys2Proof.Machine

/-- The codes of 10_state.md R21. -/
def DecoderState.code : DecoderState → BitVec 3
  | .idle => 0
  | .attn => 1
  | .start => 2
  | .addr => 3
  | .type => 4
  | .data => 5
  | .escape => 6

/-- The state of a code; none for the reserved code 111 (30_encoding.md R68). -/
def DecoderState.ofCode (w : BitVec 3) : Option DecoderState :=
  match w.toNat with
  | 0 => some .idle
  | 1 => some .attn
  | 2 => some .start
  | 3 => some .addr
  | 4 => some .type
  | 5 => some .data
  | 6 => some .escape
  | _ => none

/-- The transition word that the block forms on a FEED of `b` (30_encoding.md R61). -/
def transitionWord (s : State) (b : Byte) : TransitionWord := makeTW s.state.code b

/-- The row that a FEED of `b` performs (40_process.md R80, first line). -/
def selectedRow (s : State) (b : Byte) : Row := decodeRow s.cfg (transitionWord s b)

/-- An index operand, zero-extended (30_encoding.md R65). -/
def indexOf (i : Index) : Nat := i.toNat

/-- What a raw read shows (41_view.md R111): a byte below the cursor; none at a stale index, and at one that names no byte,
whatever the cursor (20_memory.md R40, R44, 30_encoding.md R71). -/
def rawRead (i : Index) (s : State) : Option Byte :=
  if indexOf i < s.cursor then memRead (indexOf i) s else none

/-- `Collapse` (41_view.md R115). `past` is the byte after the region, read only where the region ends in an unpaired
ESCAPE, which never happens when a frame is valid (R119). -/
def collapse (esc past : Byte) : List Byte → List Byte
  | [] => []
  | [x] => if x = esc then [past] else [x]
  | x :: y :: r => if x = esc then y :: collapse esc past r else x :: collapse esc past (y :: r)

/-- The first index of the raw data region (41_view.md R114). -/
def dataStart : Nat := 5

/-- The shortest raw frame, and so the smallest cursor at which `cursor - 2` is computed (20_memory.md R55, 10_state.md
R32). -/
def shortestFrame : Nat := dataStart + 1

/-- The length of the raw data region `buf[5 .. cursor-2]` (41_view.md R114), at a cursor of 6 or more (20_memory.md
R55). -/
def rawLength (s : State) : Nat := s.cursor - shortestFrame

/-- The raw data region (41_view.md R114). The spec states none for a cursor below 6: there it is a free value, no longer
than CURSOR_W bits can count (log entry 22, DESIGN CHOICE). -/
def rawRegion (s : State) : List Byte :=
  if shortestFrame ≤ s.cursor then viewBytes s dataStart (rawLength s)
  else (Config.shortRegion s.cursor (viewBytes s 0 s.cfg.capacity)).take (2 ^ s.cfg.cursorW - 1)

/-- `Collapse(Raw)`, the logical data of a frame. -/
def logicalData (s : State) : List Byte := collapse s.cfg.escape (Config.pastRegion (rawRegion s)) (rawRegion s)

/-- `TypeKind(t)` (41_view.md R113): the table's kind, or UNKNOWN. -/
def typeKind (c : Config) (t : Byte) : Kind :=
  match c.typeTable.find? fun e => e.1 == t with
  | some e => .listed e.2
  | none => .unknown

/-- `view_kind[2:0]` (30_encoding.md R69): 000 UNKNOWN, 001 upward in table order. -/
def kindCode : Kind → BitVec 3
  | .unknown => 0
  | .listed n => BitVec.ofNat 3 (n.val + 1)

/-- The index of the address byte (20_memory.md R50, 90_conflicts.md C1). -/
def addrIndex : Nat := 3

/-- The index of the type byte (20_memory.md R50). -/
def typeIndex : Nat := 4

end Sys2Proof.Machine
end

