-- ==== Sys2Proof/Machine/Feed.lean ====
section
/-! DEFINITION. FEED and the transition rows (40_process.md). Each row has its body (R81 to R93); `performRow` is the
common frame of FEED (R80) around a body. -/

namespace Sys2Proof.Machine

/-- How a row's body ends. -/
inductive RowResult where
  /-- The state written, and `res <- r`. -/
  | done (s : State) (r : Res)
  /-- `raise BufferOverflow()`. -/
  | overflow
deriving DecidableEq, Repr

/-- `Append(b); state <- d; res <- r`, the shape of every accepting row. -/
def appendThen (b : Byte) (d : DecoderState) (r : Res) (s : State) : RowResult :=
  match append b s with
  | .ok t => .done (setState d t) r
  | .overflow => .overflow

/-- `Clear(); state <- Idle; res <- LISTENING`, the shape of every aborting row: the byte is dropped. -/
def abortFrame (s : State) : RowResult := .done (setState .idle (clear s)) .listening

/-! ### The bodies -/

/-- R81: `Clear(); Append(b); state <- Attn; res <- LISTENING`. The append sees the cleared cursor (log entry 21). -/
def bodyIdlePre (b : Byte) (s : State) : RowResult := appendThen b .attn .listening (clear s)

/-- R82: `res <- LISTENING`; state, cursor and buffer unchanged. -/
def bodyIdleIgn (_b : Byte) (s : State) : RowResult := .done s .listening

/-- R83: `Append(b); state <- Start; res <- LISTENING`. -/
def bodyAttnPre (b : Byte) (s : State) : RowResult := appendThen b .start .listening s

/-- R84: `Clear(); state <- Idle; res <- LISTENING`. -/
def bodyAttnAbort (_b : Byte) (s : State) : RowResult := abortFrame s

/-- R85: `Append(b); state <- Addr; res <- LISTENING`. -/
def bodyStartStx (b : Byte) (s : State) : RowResult := appendThen b .addr .listening s

/-- R86: `Clear(); state <- Idle; res <- LISTENING`. A third PREAMBLE is dropped too. -/
def bodyStartAbort (_b : Byte) (s : State) : RowResult := abortFrame s

/-- R87: `Append(b); state <- Type; res <- LISTENING`. -/
def bodyAddrAcc (b : Byte) (s : State) : RowResult := appendThen b .type .listening s

/-- R88: `Append(b); state <- Data; res <- LISTENING`. -/
def bodyTypeAcc (b : Byte) (s : State) : RowResult := appendThen b .data .listening s

/-- R89: `Append(b); state <- Idle; res <- COMPLETE`. The cursor is not reset. -/
def bodyDataEtx (b : Byte) (s : State) : RowResult := appendThen b .idle .complete s

/-- R90: `Append(b); state <- Escape; res <- LISTENING`. The ESCAPE itself is stored. -/
def bodyDataDle (b : Byte) (s : State) : RowResult := appendThen b .escape .listening s

/-- R91: `Append(b); state <- Data; res <- LISTENING`. -/
def bodyDataAcc (b : Byte) (s : State) : RowResult := appendThen b .data .listening s

/-- R92: `Append(b); state <- Data; res <- LISTENING`, whatever the byte. -/
def bodyEscLit (b : Byte) (s : State) : RowResult := appendThen b .data .listening s

/-- R93: `Clear(); state <- Idle; res <- LISTENING`. -/
def bodyRsvd (_b : Byte) (s : State) : RowResult := abortFrame s

/-- `body(row, b)` (40_process.md R80). -/
def rowBody : Row → Byte → State → RowResult
  | .idlePre => bodyIdlePre
  | .idleIgn => bodyIdleIgn
  | .attnPre => bodyAttnPre
  | .attnAbort => bodyAttnAbort
  | .startStx => bodyStartStx
  | .startAbort => bodyStartAbort
  | .addrAcc => bodyAddrAcc
  | .typeAcc => bodyTypeAcc
  | .dataEtx => bodyDataEtx
  | .dataDle => bodyDataDle
  | .dataAcc => bodyDataAcc
  | .escLit => bodyEscLit
  | .rsvd => bodyRsvd

/-! ### The frame of FEED -/

/-- The common frame of FEED (40_process.md R80) around a row's body. BufferOverflow takes its outcome from
60_exceptions.md R141, on the state before the FEED (log entry 20). A FEED before the first RESET is refused (70_reset_and_hazards.md
R161). -/
def performRow (row : Row) (b : Byte) (s : State) : Host.Outcome State Fault Refusal :=
  if s.resetSeen then
    match rowBody row b s with
    | .done t r => .next (finishFeed r t)
    | .overflow => .next (finishFeed .overflow (takeOverflow s))
  else .refused .feedBeforeReset

/-- A row as an instruction of its own: it is performed when it is the row that 30_encoding.md R62 selects for the
block's state and the byte; any other row is never performed (log entry 5). -/
def runRow (row : Row) (b : Byte) (s : State) : Host.Outcome State Fault Refusal :=
  if selectedRow s b = row then performRow row b s else .refused .rowNotSelected

/-! ### The meanings -/

/-- FEED_IDLE.PRE (R81). -/
def execFeedIdlePre (s : State) : Host.Outcome State Fault Refusal := runRow .idlePre s.cfg.preamble s

/-- FEED_IDLE.IGN (R82). -/
def execFeedIdleIgn (b : Byte) (s : State) : Host.Outcome State Fault Refusal := runRow .idleIgn b s

/-- FEED_ATTN.PRE (R83). -/
def execFeedAttnPre (s : State) : Host.Outcome State Fault Refusal := runRow .attnPre s.cfg.preamble s

/-- FEED_ATTN.ABORT (R84). -/
def execFeedAttnAbort (b : Byte) (s : State) : Host.Outcome State Fault Refusal := runRow .attnAbort b s

/-- FEED_START.STX (R85). -/
def execFeedStartStx (s : State) : Host.Outcome State Fault Refusal := runRow .startStx s.cfg.start s

/-- FEED_START.ABORT (R86). -/
def execFeedStartAbort (b : Byte) (s : State) : Host.Outcome State Fault Refusal := runRow .startAbort b s

/-- FEED_ADDR.ACC (R87). -/
def execFeedAddrAcc (b : Byte) (s : State) : Host.Outcome State Fault Refusal := runRow .addrAcc b s

/-- FEED_TYPE.ACC (R88). -/
def execFeedTypeAcc (b : Byte) (s : State) : Host.Outcome State Fault Refusal := runRow .typeAcc b s

/-- FEED_DATA.ETX (R89). -/
def execFeedDataEtx (s : State) : Host.Outcome State Fault Refusal := runRow .dataEtx s.cfg.stop s

/-- FEED_DATA.DLE (R90). -/
def execFeedDataDle (s : State) : Host.Outcome State Fault Refusal := runRow .dataDle s.cfg.escape s

/-- FEED_DATA.ACC (R91). -/
def execFeedDataAcc (b : Byte) (s : State) : Host.Outcome State Fault Refusal := runRow .dataAcc b s

/-- FEED_ESC.LIT (R92). -/
def execFeedEscLit (b : Byte) (s : State) : Host.Outcome State Fault Refusal := runRow .escLit b s

/-- FEED_RSVD (R93). -/
def execFeedRsvd (b : Byte) (s : State) : Host.Outcome State Fault Refusal := runRow .rsvd b s

/-- FEED (R80): form the transition word, select the row, perform it. -/
def execFeed (b : Byte) (s : State) : Host.Outcome State Fault Refusal := performRow (selectedRow s b) b s

end Sys2Proof.Machine
end

