-- ==== Sys2Proof/Machine/View.lean ====
section
/-! DEFINITION. The raw read and the Message View (41_view.md). None of them writes the block's state (R118, log
entry 18); the reply goes to the host. -/

namespace Sys2Proof.Machine

/-- READ_RAW i (R111): a byte below the cursor, else a draw. -/
def execReadRaw (i : Index) (s : State) : Host.Outcome State Fault Refusal :=
  match rawRead i s with
  | some b => .next (reply (.byte b) s)
  | none => .next (reply (.byte (draw s).1) (draw s).2)

/-- `require frame_valid = 1` (R110): a view transaction is refused without it. -/
def requireFrame (s : State) (k : Host.Outcome State Fault Refusal) : Host.Outcome State Fault Refusal :=
  if s.frameValid then k else .refused .viewWithoutFrame

/-- VIEW_ADDR (R112): the raw byte, no offset removed. -/
def execViewAddr (s : State) : Host.Outcome State Fault Refusal :=
  requireFrame s (.next (reply (.byte (viewByte s addrIndex)) s))

/-- VIEW_TYPE (R113): the type byte and its kind. -/
def execViewType (s : State) : Host.Outcome State Fault Refusal :=
  requireFrame s (.next (reply (.typeKind (viewByte s typeIndex) (typeKind s.cfg (viewByte s typeIndex))) s))

/-- VIEW_DLEN (R116): the length of the collapsed data. -/
def execViewDlen (s : State) : Host.Outcome State Fault Refusal :=
  requireFrame s (.next (reply (.length (logicalData s).length) s))

/-- VIEW_DATA k (R117): the `k`-th byte of the collapsed data, or none past its end. -/
def execViewData (k : Index) (s : State) : Host.Outcome State Fault Refusal :=
  requireFrame s (.next (reply (.data (logicalData s)[indexOf k]?) s))

end Sys2Proof.Machine
end

