-- ==== Sys2Proof/Machine/Dispatch.lean ====
section
/-! DEFINITION. One arm per instruction, each one direct call of its meaning. -/

namespace Sys2Proof.Machine

def exec (i : Instr) (s : State) : Host.Outcome State Fault Refusal :=
  match i with
  | .feedIdlePre => Sys2Proof.Machine.execFeedIdlePre s
  | .feedIdleIgn b => Sys2Proof.Machine.execFeedIdleIgn b s
  | .feedAttnPre => Sys2Proof.Machine.execFeedAttnPre s
  | .feedAttnAbort b => Sys2Proof.Machine.execFeedAttnAbort b s
  | .feedStartStx => Sys2Proof.Machine.execFeedStartStx s
  | .feedStartAbort b => Sys2Proof.Machine.execFeedStartAbort b s
  | .feedAddrAcc b => Sys2Proof.Machine.execFeedAddrAcc b s
  | .feedTypeAcc b => Sys2Proof.Machine.execFeedTypeAcc b s
  | .feedDataEtx => Sys2Proof.Machine.execFeedDataEtx s
  | .feedDataDle => Sys2Proof.Machine.execFeedDataDle s
  | .feedDataAcc b => Sys2Proof.Machine.execFeedDataAcc b s
  | .feedEscLit b => Sys2Proof.Machine.execFeedEscLit b s
  | .feedRsvd b => Sys2Proof.Machine.execFeedRsvd b s
  | .nop => Sys2Proof.Machine.execNop s
  | .feed b => Sys2Proof.Machine.execFeed b s
  | .reset => Sys2Proof.Machine.execReset s
  | .readRaw k => Sys2Proof.Machine.execReadRaw k s
  | .viewAddr => Sys2Proof.Machine.execViewAddr s
  | .viewType => Sys2Proof.Machine.execViewType s
  | .viewDlen => Sys2Proof.Machine.execViewDlen s
  | .viewData k => Sys2Proof.Machine.execViewData k s

end Sys2Proof.Machine
end

