-- ==== Sys2Proof/Machine/Fetch.lean ====
section
/-! DEFINITION. Taking the host's next transaction, and placing a table word where the step takes it (log entries 6, 12). -/

namespace Sys2Proof.Machine

/-- What the step finds in the host's queue. -/
inductive Fetched where
  /-- A transaction, and the state without its word. -/
  | run (i : Instr) (s : State)
  /-- A reserved word (30_encoding.md R67). -/
  | reserved (why : ReservedWord)
deriving DecidableEq, Repr

/-- Take the oldest command word of the queue. With no word pending the cycle is idle, which is a NOP: `in_valid = 0`,
`rst = 0` (30_encoding.md R66, 42_control.md R131). -/
def fetch (s : State) : Fetched :=
  match s.inbox with
  | [] => .run .nop s
  | w :: ws =>
    match decodeCW w with
    | .ok i => .run i { s with inbox := ws }
    | .error e => .reserved e

/-- The command word of a FEED (30_encoding.md R66). -/
def feedWord (b : Byte) : CommandWord := makeCW 1 ((0 : BitVec 1) ++ b)

/-- The command word 0x001, which is reserved: it stands for a number that no table word spells, and for a transition word
of the reserved state code 111, which the block never forms. -/
def noWord : CommandWord := 1

/-- Place a table word so that the next step runs it. A command word goes to the head of the queue. A transition word is
formed by the block itself, from its state and the byte of a FEED (30_encoding.md R61), so its state goes into the state
register and a FEED of its byte to the head of the queue. -/
def placeWord (s : State) : Option TableWord → State
  | some (.cw w) => { s with inbox := w :: s.inbox }
  | some (.tw w) =>
    match DecoderState.ofCode (twState w) with
    | some d => { s with state := d, inbox := feedWord (twByte w) :: s.inbox }
    | none => { s with inbox := noWord :: s.inbox }
  | none => { s with inbox := noWord :: s.inbox }

end Sys2Proof.Machine
end

