-- ==== Sys2Proof/Machine/Step.lean ====
section
/-! DEFINITION. One step: the block performs the host's next transaction. -/

namespace Sys2Proof.Machine

/-- One transaction. A block with an ill-formed configuration is refused (00_scope.md R6), and so is a reserved word (30_encoding.md
R67). -/
def step (s : State) : Host.Outcome State Fault Refusal :=
  if s.cfg.wf then
    match fetch s with
    | .run i t => exec i t
    | .reserved e => .refused (.reservedCommandWord e)
  else .refused .illFormedConfig

/-- The state with a word of the opcode table placed where the next step takes it (log entry 12). -/
def State.withFetchWord (s : State) (nbits w : Nat) : State := placeWord s (tableWordOf nbits w)

end Sys2Proof.Machine
end

