-- ==== Sys2Proof/Machine/Ports.lean ====
section
/-! DEFINITION. The ports and the clock edge (30_encoding.md R75 to R77, 42_control.md R132, 20_memory.md R52). The
transaction level is normative (00_scope.md R2); this file is its cycle-level realisation, built from the same meanings. -/

namespace Sys2Proof.Machine

/-- The input ports in one cycle (30_encoding.md R75), `clk` apart. -/
structure PortsIn where
  rst     : Bool
  inValid : Bool
  inByte  : Byte
  rawIdx  : Index
  viewK   : Index
deriving DecidableEq, Repr

/-- The output ports in one cycle (30_encoding.md R75). `cursorO` and `viewDlen` are CURSOR_W bits wide. -/
structure PortsOut where
  inReady     : Bool
  resValid    : Bool
  resCode     : BitVec 2
  frameValidO : Bool
  stateO      : BitVec 3
  cursorO     : Nat
  rawByte     : Byte
  viewAddr    : Byte
  viewType    : Byte
  viewKind    : BitVec 3
  viewDlen    : Nat
  viewDvalid  : Bool
  viewDbyte   : Byte
deriving DecidableEq, Repr

/-- An unspecified byte on a port: a free value (log entry 17). -/
def undrivenByte (port n : Nat) : Byte := BitVec.ofNat 8 (Config.undriven port n)

/-- `raw_byte` (41_view.md R111): unspecified at a stale index or one that names no byte. -/
def rawByteOut (n : Nat) (i : Index) (s : State) : Byte :=
  (rawRead i s).getD (undrivenByte 0 n)

/-- `view_dlen` (41_view.md R116), CURSOR_W bits; unspecified without a valid frame (R110). -/
def viewDlenOut (n : Nat) (s : State) : Nat :=
  if s.frameValid then (logicalData s).length else Config.undriven 4 n % 2 ^ s.cfg.cursorW

/-- `view_dvalid` (30_encoding.md R75): `frame_valid_o = 1` and `view_k < view_dlen`. -/
def viewDvalidOut (n : Nat) (k : Index) (s : State) : Bool :=
  s.frameValid && decide (indexOf k < viewDlenOut n s)

/-- `view_dbyte` (41_view.md R117): unspecified where `view_dvalid = 0`. -/
def viewDbyteOut (n : Nat) (k : Index) (s : State) : Byte :=
  (if s.frameValid then (logicalData s)[indexOf k]? else none).getD (undrivenByte 5 n)

/-- `view_addr` (41_view.md R112). -/
def viewAddrOut (n : Nat) (s : State) : Byte :=
  if s.frameValid then viewByte s addrIndex else undrivenByte 1 n

/-- `view_type` (41_view.md R113). -/
def viewTypeOut (n : Nat) (s : State) : Byte :=
  if s.frameValid then viewByte s typeIndex else undrivenByte 2 n

/-- `view_kind` (41_view.md R113, 30_encoding.md R69). -/
def viewKindOut (n : Nat) (s : State) : BitVec 3 :=
  if s.frameValid then kindCode (typeKind s.cfg (viewTypeOut n s)) else BitVec.ofNat 3 (Config.undriven 3 n)

/-- The outputs in the `n`-th sampled cycle: functions of the registered state and of `raw_idx` and `view_k`
(30_encoding.md R76). `in_ready` is constant 1 (R77). -/
def outputs (n : Nat) (p : PortsIn) (s : State) : PortsOut where
  inReady     := true
  resValid    := s.resValid
  resCode     := resCodeBits s.resCode
  frameValidO := s.frameValid
  stateO      := s.state.code
  cursorO     := s.cursor
  rawByte     := rawByteOut n p.rawIdx s
  viewAddr    := viewAddrOut n s
  viewType    := viewTypeOut n s
  viewKind    := viewKindOut n s
  viewDlen    := viewDlenOut n s
  viewDvalid  := viewDvalidOut n p.viewK s
  viewDbyte   := viewDbyteOut n p.viewK s

/-- A rising edge of `clk` (30_encoding.md R76): RESET if `rst = 1`, whatever `in_valid` says (42_control.md R132); else
FEED if `in_valid = 1`; else an idle cycle. -/
def clockEdge (p : PortsIn) (s : State) : Host.Outcome State Fault Refusal :=
  if p.rst then exec .reset s else if p.inValid then exec (.feed p.inByte) s else exec .nop s

/-- One cycle: the outputs are sampled before the edge and show the state from before it (20_memory.md R52). -/
def portCycle (n : Nat) (p : PortsIn) (s : State) : PortsOut × Host.Outcome State Fault Refusal :=
  (outputs n p s, clockEdge p s)

/-- The input ports that present a transaction (30_encoding.md R66, "port realisation"). Ports that the transaction does
not use keep the values of `p`. A row instruction is presented by no port. -/
def portsFor (p : PortsIn) : Instr → Option PortsIn
  | .nop => some { p with rst := false, inValid := false }
  | .feed b => some { p with rst := false, inValid := true, inByte := b }
  | .reset => some { p with rst := true }
  | .readRaw i => some { p with rawIdx := i }
  | .viewAddr => some p
  | .viewType => some p
  | .viewDlen => some p
  | .viewData k => some { p with viewK := k }
  | .feedIdlePre => none
  | .feedIdleIgn _ => none
  | .feedAttnPre => none
  | .feedAttnAbort _ => none
  | .feedStartStx => none
  | .feedStartAbort _ => none
  | .feedAddrAcc _ => none
  | .feedTypeAcc _ => none
  | .feedDataEtx => none
  | .feedDataDle => none
  | .feedDataAcc _ => none
  | .feedEscLit _ => none
  | .feedRsvd _ => none

end Sys2Proof.Machine
end

