-- ==== Sys2Proof/Machine/Wire.lean ====
section
/-! DEFINITION. The transmitter's reference encoding of a frame (30_encoding.md R63) and the stimulus lines (R72, R73).
The block holds neither: they say what bytes and command words a host issues. -/

namespace Sys2Proof.Machine

/-- A byte that the transmitter must precede by ESCAPE inside the data (30_encoding.md R63). -/
def mustEscape (c : Config) (x : Byte) : Bool := x == c.stop || x == c.escape || x == c.preamble

/-- The data bytes on the wire (30_encoding.md R63). -/
def escapeData (c : Config) : List Byte → List Byte
  | [] => []
  | x :: d => if mustEscape c x then c.escape :: x :: escapeData c d else x :: escapeData c d

/-- `Encode(a, t, d)` (30_encoding.md R63). -/
def frameBytes (c : Config) (a t : Byte) (d : List Byte) : List Byte :=
  [c.preamble, c.preamble, c.start, a, t] ++ escapeData c d ++ [c.stop]

/-! ### Stimulus lines -/

/-- One line of a stimulus program (30_encoding.md R72), and the pseudo-instruction `frame` (R73). -/
inductive Stim where
  | nop
  | feed (bs : List Byte)
  | feedRun (b : Byte) (n : Nat)
  | reset
  | readRaw (i : Index)
  | viewAddr
  | viewType
  | viewDlen
  | viewData (k : Index)
  | frame (a t : Byte) (d : List Byte)
deriving DecidableEq, Repr

/-- The command word of a transaction, `none` for a row instruction. -/
def cwOf (c : Config) (i : Instr) : Option CommandWord :=
  match encode c i with
  | .cw w => some w
  | .tw _ => none

/-- The transactions of a line, in order. -/
def Stim.instrs (c : Config) : Stim → List Instr
  | .nop => [.nop]
  | .feed bs => bs.map .feed
  | .feedRun b n => List.replicate n (.feed b)
  | .reset => [.reset]
  | .readRaw i => [.readRaw i]
  | .viewAddr => [.viewAddr]
  | .viewType => [.viewType]
  | .viewDlen => [.viewDlen]
  | .viewData k => [.viewData k]
  | .frame a t d => (frameBytes c a t d).map .feed

/-- The command words of a line, in order. -/
def Stim.words (c : Config) (l : Stim) : List CommandWord := (l.instrs c).filterMap (cwOf c)

/-! ### Reading a line of text (log entry 19) -/

/-- The part of a line before its comment. -/
def beforeComment (l : List Char) : List Char := l.takeWhile (· != ';')

/-- Tokens of a line: words between blanks; a comma or a bracket is a token of its own. -/
def tokens : List Char → List Char → List (List Char)
  | acc, [] => if acc.isEmpty then [] else [acc.reverse]
  | acc, ch :: l =>
    let done := if acc.isEmpty then [] else [acc.reverse]
    if ch == ' ' || ch == '\t' || ch == '\r' then done ++ tokens [] l
    else if ch == ',' || ch == '[' || ch == ']' then done ++ [ch] :: tokens [] l
    else tokens (ch :: acc) l

/-- A decimal digit. -/
def decDigit (ch : Char) : Option Nat :=
  if 48 ≤ ch.toNat ∧ ch.toNat ≤ 57 then some (ch.toNat - 48) else none

/-- A hexadecimal digit. -/
def hexDigit (ch : Char) : Option Nat :=
  if 48 ≤ ch.toNat ∧ ch.toNat ≤ 57 then some (ch.toNat - 48)
  else if 65 ≤ ch.toNat ∧ ch.toNat ≤ 70 then some (ch.toNat - 55)
  else if 97 ≤ ch.toNat ∧ ch.toNat ≤ 102 then some (ch.toNat - 87)
  else none

/-- A byte of a byte list: two hexadecimal digits without a mark (30_encoding.md R72). -/
def hexByte : List Char → Option Byte
  | [a, b] => do some (BitVec.ofNat 8 (16 * (← hexDigit a) + (← hexDigit b)))
  | _ => none

/-- A decimal number, most significant digit first. -/
def decNat : Nat → List Char → Option Nat
  | n, [] => some n
  | n, ch :: l => do decNat (10 * n + (← decDigit ch)) l

/-- A decimal index 0..511. -/
def decIndex (t : List Char) : Option Index := do
  let n ← if t.isEmpty then none else decNat 0 t
  if n < 512 then some (BitVec.ofNat 9 n) else none

/-- The bytes of a bracketed list after its opening bracket, to its closing one and the end of the line. -/
def bracketBytes : List (List Char) → Option (List Byte)
  | [[']']] => some []
  | [b, [']']] => do some [← hexByte b]
  | b :: [','] :: ts => do some ((← hexByte b) :: (← bracketBytes ts))
  | _ => none

/-- One line of stimulus text (30_encoding.md R72, R73); `some none` is a blank or comment line, and `none` a line that
is not of the form the rules give. -/
def parseLine (l : List Char) : Option (Option Stim) :=
  match tokens [] (beforeComment l) with
  | [] => some none
  | [['n', 'o', 'p']] => some (some .nop)
  | [['r', 'e', 's', 'e', 't']] => some (some .reset)
  | [['v', 'i', 'e', 'w', '_', 'a', 'd', 'd', 'r']] => some (some .viewAddr)
  | [['v', 'i', 'e', 'w', '_', 't', 'y', 'p', 'e']] => some (some .viewType)
  | [['v', 'i', 'e', 'w', '_', 'd', 'l', 'e', 'n']] => some (some .viewDlen)
  | [['r', 'e', 'a', 'd', '_', 'r', 'a', 'w'], i] => do some (some (.readRaw (← decIndex i)))
  | [['v', 'i', 'e', 'w', '_', 'd', 'a', 't', 'a'], k] => do some (some (.viewData (← decIndex k)))
  | [['f', 'e', 'e', 'd'], b, '*' :: n] => do
    some (some (.feedRun (← hexByte b) (← if n.isEmpty then none else decNat 0 n)))
  | ['f', 'e', 'e', 'd'] :: b :: bs => do some (some (.feed (← (b :: bs).mapM hexByte)))
  | ['f', 'r', 'a', 'm', 'e'] :: a :: [','] :: t :: [','] :: ['['] :: ts => do
    some (some (.frame (← hexByte a) (← hexByte t) (← bracketBytes ts)))
  | _ => none

end Sys2Proof.Machine
end

