-- ==== Sys2Proof/Safety.lean ====
section
/-! DEFINITION. The terms that claims use: the valid bytes, the shape of the buffer in each state (10_state.md R31, R32),
the invariant, reachability, sequences of FEEDs and of instructions, and what is visible of a state. -/

namespace Sys2Proof.Machine

/-- The bytes accepted since the last clear, `buf[0 .. cursor-1]` (10_state.md R22). -/
def State.validBytes (s : State) : List Byte := s.bytesFrom 0 s.cursor

/-- Raw data in which every ESCAPE has its literal and no STOP stands outside a pair: what the Data rows leave when they
end in state Data (40_process.md R89 to R92). -/
def paired (stop esc : Byte) : List Byte → Bool
  | [] => true
  | [x] => x != esc && x != stop
  | x :: y :: r => if x = esc then paired stop esc r else x != stop && paired stop esc (y :: r)

/-- The bytes begin `PREAMBLE PREAMBLE START`. -/
def hasHeader (c : Config) (l : List Byte) : Bool := l.take 3 == [c.preamble, c.preamble, c.start]

/-- After the type byte: paired raw data, then one byte `last`. -/
def pairedThen (c : Config) (last : Byte) (l : List Byte) : Bool :=
  decide (6 ≤ l.length) && hasHeader c l && (l.getLast? == some last) && paired c.stop c.escape (l.drop 5).dropLast

/-- A raw frame that the rows accept (10_state.md R32, 40_process.md R98). -/
def isFrame (c : Config) (l : List Byte) : Bool := pairedThen c c.stop l

/-- The buffer has the shape that 10_state.md R31 gives for the state. -/
def shapeOk (c : Config) (st : DecoderState) (l : List Byte) : Bool :=
  match st with
  | .idle => l.isEmpty || isFrame c l
  | .attn => l == [c.preamble]
  | .start => l == [c.preamble, c.preamble]
  | .addr => l == [c.preamble, c.preamble, c.start]
  | .type => l.length == 4 && hasHeader c l
  | .data => decide (5 ≤ l.length) && hasHeader c l && paired c.stop c.escape (l.drop 5)
  | .escape => pairedThen c c.escape l

/-- Every listed index of the buffer is below `n`. -/
def Memory.below (n : Nat) (m : Memory) : Bool := m.all fun e => decide (e.1 < n)

/-- The invariant of the block (10_state.md R22, R24, R30 to R33). -/
abbrev BlockInv (s : State) : Prop :=
  s.cfg.wf = true ∧ s.cursor ≤ s.cfg.capacity ∧ Memory.wf s.buf = true ∧ Memory.below s.cfg.capacity s.buf = true ∧
  shapeOk s.cfg s.state s.validBytes = true ∧
  (s.frameValid = true → s.state = .idle ∧ 6 ≤ s.cursor) ∧
  s.frameValid = decide (s.resCode = .complete)

/-- The states that transactions reach from reset, at any well-formed configuration. -/
inductive Reachable : State → Prop where
  | reset (c : Config) (h : c.wf = true) : Reachable (State.resetWith c)
  | transaction (i : Instr) (s t : State) (hs : Reachable s) (h : exec i s = .next t) : Reachable t

/-- A sequence of FEEDs. -/
def feedAll : List Byte → State → Host.Outcome State Fault Refusal
  | [], s => .next s
  | b :: bs, s =>
    match exec (.feed b) s with
    | .next t => feedAll bs t
    | .fault f => .fault f
    | .refused r => .refused r

/-- A sequence of instructions. -/
def execAll : List Instr → State → Host.Outcome State Fault Refusal
  | [], s => .next s
  | i :: is, s =>
    match exec i s with
    | .next t => execAll is t
    | .fault f => .fault f
    | .refused r => .refused r

/-- The responses of a sequence of FEEDs, in order. -/
def responses : List Byte → State → List Res
  | [], _ => []
  | b :: bs, s =>
    match exec (.feed b) s with
    | .next t => t.resCode :: responses bs t
    | .fault _ => []
    | .refused _ => []

/-- Two states show the same to FEEDs and views: all but stale bytes, the response register and the model's own fields
(20_memory.md R44, 40_process.md R96). -/
abbrev SameVisible (s t : State) : Prop :=
  s.cfg = t.cfg ∧ s.state = t.state ∧ s.cursor = t.cursor ∧ s.frameValid = t.frameValid ∧
  s.resetSeen = t.resetSeen ∧ s.validBytes = t.validBytes

/-- The row an instruction performs, if it performs one. -/
def rowOf (s : State) : Instr → Option Row
  | .feedIdlePre => some .idlePre
  | .feedIdleIgn _ => some .idleIgn
  | .feedAttnPre => some .attnPre
  | .feedAttnAbort _ => some .attnAbort
  | .feedStartStx => some .startStx
  | .feedStartAbort _ => some .startAbort
  | .feedAddrAcc _ => some .addrAcc
  | .feedTypeAcc _ => some .typeAcc
  | .feedDataEtx => some .dataEtx
  | .feedDataDle => some .dataDle
  | .feedDataAcc _ => some .dataAcc
  | .feedEscLit _ => some .escLit
  | .feedRsvd _ => some .rsvd
  | .nop => none
  | .feed b => some (selectedRow s b)
  | .reset => none
  | .readRaw _ => none
  | .viewAddr => none
  | .viewType => none
  | .viewDlen => none
  | .viewData _ => none

/-- Where a row's `Append` stores: at the cursor it sees, if that is below C (20_memory.md R43). IDLE.PRE clears first. -/
def rowStoreIndex (s : State) : Row → Option Nat
  | .idlePre => if (clear s).cursor < s.cfg.capacity then some (clear s).cursor else none
  | .idleIgn => none
  | .attnAbort => none
  | .startAbort => none
  | .rsvd => none
  | .attnPre => if s.cursor < s.cfg.capacity then some s.cursor else none
  | .startStx => if s.cursor < s.cfg.capacity then some s.cursor else none
  | .addrAcc => if s.cursor < s.cfg.capacity then some s.cursor else none
  | .typeAcc => if s.cursor < s.cfg.capacity then some s.cursor else none
  | .dataEtx => if s.cursor < s.cfg.capacity then some s.cursor else none
  | .dataDle => if s.cursor < s.cfg.capacity then some s.cursor else none
  | .dataAcc => if s.cursor < s.cfg.capacity then some s.cursor else none
  | .escLit => if s.cursor < s.cfg.capacity then some s.cursor else none

/-- The buffer index an instruction stores to, if it stores. -/
def storeIndex (i : Instr) (s : State) : Option Nat := (rowOf s i).bind (rowStoreIndex s)

/-- The byte a row instruction performs its row with (40_process.md R81 to R93: a row that names one byte value takes it
from the configuration); 0 for an instruction that performs no row. -/
def rowByte (s : State) : Instr → Byte
  | .feedIdlePre => s.cfg.preamble
  | .feedIdleIgn b => b
  | .feedAttnPre => s.cfg.preamble
  | .feedAttnAbort b => b
  | .feedStartStx => s.cfg.start
  | .feedStartAbort b => b
  | .feedAddrAcc b => b
  | .feedTypeAcc b => b
  | .feedDataEtx => s.cfg.stop
  | .feedDataDle => s.cfg.escape
  | .feedDataAcc b => b
  | .feedEscLit b => b
  | .feedRsvd b => b
  | .feed b => b
  | .nop => 0
  | .reset => 0
  | .readRaw _ => 0
  | .viewAddr => 0
  | .viewType => 0
  | .viewDlen => 0
  | .viewData _ => 0

/-- The state after a FEED that leaves these values in the registers and the buffer and answers `r` (40_process.md R80):
everything else is as before. -/
abbrev State.afterFeed (s : State) (st : DecoderState) (cursor : Nat) (buf : Memory) (r : Res) : State :=
  { s with state := st, cursor := cursor, buf := buf, frameValid := decide (r = .complete), resValid := true,
           resCode := r, out := .response r }

/-- The state after a FEED that overflows, for each value of OVF_POLICY (60_exceptions.md R141). -/
abbrev State.afterOverflow (s : State) : State :=
  match s.cfg.ovfPolicy with
  | .hold => s.afterFeed s.state s.cursor s.buf .overflow
  | .toIdle => s.afterFeed .idle 0 s.buf .overflow

end Sys2Proof.Machine
end

