-- ==== Sys2Proof/Certificates/Slice0/Obligations.lean ====
section
/-! DEFINITION. The statements for the provers. Each docstring names the rule it formalises. "As the rules give it" means
an equality of the whole next state, so each such statement is its instruction's frame and completion as well. -/

open Sys2Proof Sys2Proof.Machine

/-! ### Encodings -/

/-- Words written out from the spec's encodings decode to their instructions (30_encoding.md R62, R66;
95_test_vectors.md V-ENC, V-TW). -/
def Obligations.SpecWordsDecode : Prop :=
  decodeCW 0x000 = .ok .nop ∧ decodeCW 0x2FF = .ok (.feed 0xFF) ∧ decodeCW 0x400 = .ok .reset ∧
  decodeCW 0x701 = .ok (.readRaw 257) ∧ decodeCW 0x800 = .ok .viewAddr ∧ decodeCW 0xA00 = .ok .viewType ∧
  decodeCW 0xC00 = .ok .viewDlen ∧ decodeCW 0xE03 = .ok (.viewData 3) ∧
  decodeTW Config.default 0x0FF = .feedIdlePre ∧ decodeTW Config.default 0x002 = .feedIdleIgn 0x02 ∧
  decodeTW Config.default 0x1FF = .feedAttnPre ∧ decodeTW Config.default 0x17E = .feedAttnAbort 0x7E ∧
  decodeTW Config.default 0x202 = .feedStartStx ∧ decodeTW Config.default 0x2FF = .feedStartAbort 0xFF ∧
  decodeTW Config.default 0x341 = .feedAddrAcc 0x41 ∧ decodeTW Config.default 0x450 = .feedTypeAcc 0x50 ∧
  decodeTW Config.default 0x503 = .feedDataEtx ∧ decodeTW Config.default 0x510 = .feedDataDle ∧
  decodeTW Config.default 0x5FF = .feedDataAcc 0xFF ∧ decodeTW Config.default 0x603 = .feedEscLit 0x03 ∧
  decodeTW Config.default 0x7AA = .feedRsvd 0xAA

/-- 30_encoding.md R65, R66: every transaction's pattern, with every operand, and the ports that present it. -/
def Obligations.CommandWordPatterns : Prop :=
  ∀ (b : Byte) (i : Index) (p : PortsIn),
    decodeCW 0x000 = .ok .nop ∧ portsFor p .nop = some { p with rst := false, inValid := false } ∧
    decodeCW (0x200 ||| b.setWidth 12) = .ok (.feed b) ∧
    portsFor p (.feed b) = some { p with rst := false, inValid := true, inByte := b } ∧
    decodeCW 0x400 = .ok .reset ∧ portsFor p .reset = some { p with rst := true } ∧
    decodeCW (0x600 ||| i.setWidth 12) = .ok (.readRaw i) ∧ portsFor p (.readRaw i) = some { p with rawIdx := i } ∧
    decodeCW 0x800 = .ok .viewAddr ∧ portsFor p .viewAddr = some p ∧
    decodeCW 0xA00 = .ok .viewType ∧ portsFor p .viewType = some p ∧
    decodeCW 0xC00 = .ok .viewDlen ∧ portsFor p .viewDlen = some p ∧
    decodeCW (0xE00 ||| i.setWidth 12) = .ok (.viewData i) ∧ portsFor p (.viewData i) = some { p with viewK := i }

/-- 30_encoding.md R67: exactly the words with a must-be-0 bit set are refused, each by name, and the step refuses them. -/
def Obligations.ReservedCommandWordsRefused : Prop :=
  ∀ w : CommandWord,
    ((∃ e, decodeCW w = .error e) ↔
      (cwOp w = 1 ∧ cwArgBit8 w = 1) ∨
      ((cwOp w = 0 ∨ cwOp w = 2 ∨ cwOp w = 4 ∨ cwOp w = 5 ∨ cwOp w = 6) ∧ cwArg w ≠ 0)) ∧
    (∀ e, decodeCW w = .error e →
      e = (if cwOp w = 1 then .feedArgBit8 else .argNotZero (cwOp w)) ∧
      ∀ (s : State) (ws : List CommandWord), s.cfg.wf = true → s.inbox = w :: ws →
        step s = .refused (.reservedCommandWord e))

/-- Decode and encode agree, for every well-formed instruction and configuration (30_encoding.md R62, R66). -/
def Obligations.EncodeDecodeRoundTrip : Prop :=
  ∀ (c : Config) (i : Instr), c.wf = true → i.wf c = true → decode c (encode c i) = .ok i

/-- 30_encoding.md R60: the five classes, at every well-formed configuration, and the default values. -/
def Obligations.ByteClassConditions : Prop :=
  (∀ (c : Config) (b : Byte), c.wf = true →
    (classOf c b = .pre ↔ b = c.preamble) ∧ (classOf c b = .stx ↔ b = c.start) ∧
    (classOf c b = .etx ↔ b = c.stop) ∧ (classOf c b = .dle ↔ b = c.escape) ∧
    (classOf c b = .other ↔ b ≠ c.preamble ∧ b ≠ c.start ∧ b ≠ c.stop ∧ b ≠ c.escape)) ∧
  Config.default.preamble = 0xFF ∧ Config.default.start = 0x02 ∧ Config.default.stop = 0x03 ∧
  Config.default.escape = 0x10 ∧
  ((List.range 256).filter fun n => classOf Config.default (BitVec.ofNat 8 n) == .other).length = 252

/-- 30_encoding.md R62: each state code and byte selects exactly the row whose condition holds, and at the default
constants it is the row that the printed match and mask values select first, for each of the 2^11 transition words. -/
def Obligations.TransitionRowConditions : Prop :=
  (∀ w : TransitionWord, tableRow w = some (decodeRow Config.default w)) ∧
  ∀ (c : Config) (s : BitVec 3) (b : Byte), c.wf = true →
    (decodeRow c (makeTW s b) = .idlePre ↔ s = 0 ∧ b = c.preamble) ∧
    (decodeRow c (makeTW s b) = .idleIgn ↔ s = 0 ∧ b ≠ c.preamble) ∧
    (decodeRow c (makeTW s b) = .attnPre ↔ s = 1 ∧ b = c.preamble) ∧
    (decodeRow c (makeTW s b) = .attnAbort ↔ s = 1 ∧ b ≠ c.preamble) ∧
    (decodeRow c (makeTW s b) = .startStx ↔ s = 2 ∧ b = c.start) ∧
    (decodeRow c (makeTW s b) = .startAbort ↔ s = 2 ∧ b ≠ c.start) ∧
    (decodeRow c (makeTW s b) = .addrAcc ↔ s = 3) ∧
    (decodeRow c (makeTW s b) = .typeAcc ↔ s = 4) ∧
    (decodeRow c (makeTW s b) = .dataEtx ↔ s = 5 ∧ b = c.stop) ∧
    (decodeRow c (makeTW s b) = .dataDle ↔ s = 5 ∧ b = c.escape) ∧
    (decodeRow c (makeTW s b) = .dataAcc ↔ s = 5 ∧ b ≠ c.stop ∧ b ≠ c.escape) ∧
    (decodeRow c (makeTW s b) = .escLit ↔ s = 6) ∧
    (decodeRow c (makeTW s b) = .rsvd ↔ s = 7)

/-- The codes of the state register, the responses and the message kinds (10_state.md R21, 30_encoding.md R69, R70). -/
def Obligations.RegisterCodes : Prop :=
  DecoderState.idle.code = 0 ∧ DecoderState.attn.code = 1 ∧ DecoderState.start.code = 2 ∧
  DecoderState.addr.code = 3 ∧ DecoderState.type.code = 4 ∧ DecoderState.data.code = 5 ∧
  DecoderState.escape.code = 6 ∧
  (∀ d : DecoderState, DecoderState.ofCode d.code = some d) ∧ DecoderState.ofCode 7 = none ∧
  resCodeBits .listening = 0 ∧ resCodeBits .complete = 1 ∧ resCodeBits .overflow = 2 ∧
  kindCode .unknown = 0 ∧ (∀ n : Fin 7, (kindCode (.listed n)).toNat = n.val + 1)

/-! ### The step -/

/-- The step runs the decoded instruction: the oldest word of the host's queue, or NOP when none is pending
(30_encoding.md R66, R76; log entry 6). -/
def Obligations.StepRunsDecodedInstruction : Prop :=
  ∀ s : State, s.cfg.wf = true →
    (s.inbox = [] → step s = exec .nop s) ∧
    (∀ (i : Instr) (w : CommandWord) (ws : List CommandWord), s.inbox = w :: ws → decodeCW w = .ok i →
      step s = exec i { s with inbox := ws })

/-- A placed instruction is the very next to run: a command word as it stands, a transition word in the state it names,
where the FEED of its byte does what the row does (30_encoding.md R61, 40_process.md R80; log entries 5, 12). A word of
the reserved code names no state, and is refused. -/
def Obligations.StepRunsPlacedInstruction : Prop :=
  ∀ (s : State) (i : Instr), s.cfg.wf = true → i.wf s.cfg = true →
    (∀ w, encode s.cfg i = .cw w → step (placeWord s (some (.cw w))) = exec i s) ∧
    (∀ w, encode s.cfg i = .tw w →
      (∀ d : DecoderState, d.code = twState w → step (placeWord s (some (.tw w))) = exec i { s with state := d }) ∧
      (twState w = 7 → step (placeWord s (some (.tw w))) = .refused (.reservedCommandWord (.argNotZero 0))))

/-- 00_scope.md R6: the four conditions of a well-formed configuration, and the refusal of any other. -/
def Obligations.IllFormedConfigurationRefused : Prop :=
  (∀ c : Config, c.wf = true ↔
    (c.preamble ≠ c.start ∧ c.preamble ≠ c.stop ∧ c.preamble ≠ c.escape ∧ c.start ≠ c.stop ∧ c.start ≠ c.escape ∧
      c.stop ≠ c.escape) ∧
    6 ≤ c.capacity ∧ c.capacity ≤ 2 ^ c.cursorW - 1 ∧
    (∀ b k k', (b, k) ∈ c.typeTable → (b, k') ∈ c.typeTable → k = k')) ∧
  (∀ s : State, s.cfg.wf = false → step s = .refused .illFormedConfig)

/-! ### FEED -/

/-- 40_process.md R80: FEED performs the row that the transition word of the state and the byte decodes to, and is total:
it answers a next state whose `frame_valid` says whether the response is COMPLETE. -/
def Obligations.FeedPerformsTheSelectedRow : Prop :=
  ∀ (s : State) (b : Byte),
    exec (.feed b) s = exec (decodeTW s.cfg (transitionWord s b)) s ∧
    (s.resetSeen = true →
      ∃ t, exec (.feed b) s = .next t ∧ t.frameValid = decide (t.resCode = .complete) ∧ t.resValid = true ∧
        t.out = .response t.resCode)

/-- A row instruction runs exactly in the state its word names: there it answers a next state, elsewhere it is refused by
name (30_encoding.md R62; log entry 5, the model's choice). -/
def Obligations.RowRunsOnlyInItsState : Prop :=
  ∀ (s : State) (i : Instr) (w : TransitionWord), s.cfg.wf = true → i.wf s.cfg = true → encode s.cfg i = .tw w →
    (twState w ≠ s.state.code → exec i s = .refused .rowNotSelected) ∧
    (twState w = s.state.code → s.resetSeen = true →
      ∃ t, exec i s = .next t ∧ exec (.feed (twByte w)) s = .next t)

/-- 40_process.md R81, IDLE.PRE. -/
def Obligations.IdlePreStartsAFrame : Prop :=
  decodeTW Config.default 0x0FF = .feedIdlePre ∧
  ∀ s : State, s.cfg.wf = true → s.resetSeen = true → s.state = .idle →
    decodeTW s.cfg (transitionWord s s.cfg.preamble) = .feedIdlePre ∧
    exec .feedIdlePre s = .next (s.afterFeed .attn 1 (s.buf.write 0 s.cfg.preamble) .listening) ∧
    exec (.feed s.cfg.preamble) s = exec .feedIdlePre s

/-- 40_process.md R82, IDLE.IGN: nothing but the flags changes, and the view of an old frame is gone. -/
def Obligations.IdleIgnKeepsTheBuffer : Prop :=
  ∀ (s : State) (b : Byte), s.cfg.wf = true → s.resetSeen = true → s.state = .idle → b ≠ s.cfg.preamble →
    decodeTW s.cfg (transitionWord s b) = .feedIdleIgn b ∧
    exec (.feedIdleIgn b) s = .next (s.afterFeed s.state s.cursor s.buf .listening) ∧
    exec (.feed b) s = exec (.feedIdleIgn b) s ∧
    exec .viewAddr (s.afterFeed s.state s.cursor s.buf .listening) = .refused .viewWithoutFrame

/-- 40_process.md R83, ATTN.PRE. -/
def Obligations.AttnPreGoesToStart : Prop :=
  decodeTW Config.default 0x1FF = .feedAttnPre ∧
  ∀ s : State, s.cfg.wf = true → s.resetSeen = true → s.state = .attn → s.cursor < s.cfg.capacity →
    decodeTW s.cfg (transitionWord s s.cfg.preamble) = .feedAttnPre ∧
    exec .feedAttnPre s =
      .next (s.afterFeed .start (s.cursor + 1) (s.buf.write s.cursor s.cfg.preamble) .listening) ∧
    exec (.feed s.cfg.preamble) s = exec .feedAttnPre s ∧
    (BlockInv s → s.cursor = 1)

/-- 40_process.md R84 and R86, ATTN.ABORT and START.ABORT: the byte is dropped, a third PREAMBLE too. -/
def Obligations.AbortRowsReturnToIdle : Prop :=
  ∀ (s : State) (b : Byte), s.cfg.wf = true → s.resetSeen = true →
    (s.state = .attn → b ≠ s.cfg.preamble →
      decodeTW s.cfg (transitionWord s b) = .feedAttnAbort b ∧
      exec (.feedAttnAbort b) s = .next (s.afterFeed .idle 0 s.buf .listening) ∧
      exec (.feed b) s = exec (.feedAttnAbort b) s) ∧
    (s.state = .start → b ≠ s.cfg.start →
      decodeTW s.cfg (transitionWord s b) = .feedStartAbort b ∧
      exec (.feedStartAbort b) s = .next (s.afterFeed .idle 0 s.buf .listening) ∧
      exec (.feed b) s = exec (.feedStartAbort b) s)

/-- 40_process.md R85, START.STX. -/
def Obligations.StartStxGoesToAddr : Prop :=
  decodeTW Config.default 0x202 = .feedStartStx ∧
  ∀ s : State, s.cfg.wf = true → s.resetSeen = true → s.state = .start → s.cursor < s.cfg.capacity →
    decodeTW s.cfg (transitionWord s s.cfg.start) = .feedStartStx ∧
    exec .feedStartStx s =
      .next (s.afterFeed .addr (s.cursor + 1) (s.buf.write s.cursor s.cfg.start) .listening) ∧
    exec (.feed s.cfg.start) s = exec .feedStartStx s ∧
    (BlockInv s → s.cursor = 2)

/-- 40_process.md R87 and R88, ADDR.ACC and TYPE.ACC: every byte is accepted. -/
def Obligations.AddrAndTypeAcceptEveryByte : Prop :=
  ∀ (s : State) (b : Byte), s.cfg.wf = true → s.resetSeen = true → s.cursor < s.cfg.capacity →
    (s.state = .addr →
      decodeTW s.cfg (transitionWord s b) = .feedAddrAcc b ∧
      exec (.feedAddrAcc b) s = .next (s.afterFeed .type (s.cursor + 1) (s.buf.write s.cursor b) .listening) ∧
      exec (.feed b) s = exec (.feedAddrAcc b) s ∧
      (BlockInv s → s.cursor = 3)) ∧
    (s.state = .type →
      decodeTW s.cfg (transitionWord s b) = .feedTypeAcc b ∧
      exec (.feedTypeAcc b) s = .next (s.afterFeed .data (s.cursor + 1) (s.buf.write s.cursor b) .listening) ∧
      exec (.feed b) s = exec (.feedTypeAcc b) s ∧
      (BlockInv s → s.cursor = 4))

/-- 40_process.md R89, DATA.ETX: the frame completes, or the STOP overflows. -/
def Obligations.DataEtxCompletesOrOverflows : Prop :=
  decodeTW Config.default 0x503 = .feedDataEtx ∧
  ∀ s : State, s.cfg.wf = true → s.resetSeen = true → s.state = .data →
    decodeTW s.cfg (transitionWord s s.cfg.stop) = .feedDataEtx ∧
    exec (.feed s.cfg.stop) s = exec .feedDataEtx s ∧
    (s.cursor < s.cfg.capacity → exec .feedDataEtx s =
      .next (s.afterFeed .idle (s.cursor + 1) (s.buf.write s.cursor s.cfg.stop) .complete)) ∧
    (s.cursor = s.cfg.capacity → exec .feedDataEtx s = .next s.afterOverflow)

/-- 40_process.md R90, DATA.DLE: the ESCAPE itself is stored. -/
def Obligations.DataDleEntersEscape : Prop :=
  decodeTW Config.default 0x510 = .feedDataDle ∧
  ∀ s : State, s.cfg.wf = true → s.resetSeen = true → s.state = .data →
    decodeTW s.cfg (transitionWord s s.cfg.escape) = .feedDataDle ∧
    exec (.feed s.cfg.escape) s = exec .feedDataDle s ∧
    (s.cursor < s.cfg.capacity → exec .feedDataDle s =
      .next (s.afterFeed .escape (s.cursor + 1) (s.buf.write s.cursor s.cfg.escape) .listening)) ∧
    (s.cursor = s.cfg.capacity → exec .feedDataDle s = .next s.afterOverflow)

/-- 40_process.md R91, DATA.ACC: an unescaped PREAMBLE or START is data. -/
def Obligations.DataAccStoresTheByte : Prop :=
  ∀ (s : State) (b : Byte), s.cfg.wf = true → s.resetSeen = true → s.state = .data →
    b ≠ s.cfg.stop → b ≠ s.cfg.escape →
    decodeTW s.cfg (transitionWord s b) = .feedDataAcc b ∧
    exec (.feed b) s = exec (.feedDataAcc b) s ∧
    (s.cursor < s.cfg.capacity → exec (.feedDataAcc b) s =
      .next (s.afterFeed .data (s.cursor + 1) (s.buf.write s.cursor b) .listening)) ∧
    (s.cursor = s.cfg.capacity → exec (.feedDataAcc b) s = .next s.afterOverflow)

/-- 40_process.md R92, ESC.LIT: any byte is a literal. -/
def Obligations.EscLitStoresTheLiteral : Prop :=
  ∀ (s : State) (b : Byte), s.cfg.wf = true → s.resetSeen = true → s.state = .escape →
    decodeTW s.cfg (transitionWord s b) = .feedEscLit b ∧
    exec (.feed b) s = exec (.feedEscLit b) s ∧
    (s.cursor < s.cfg.capacity → exec (.feedEscLit b) s =
      .next (s.afterFeed .data (s.cursor + 1) (s.buf.write s.cursor b) .listening)) ∧
    (s.cursor = s.cfg.capacity → exec (.feedEscLit b) s = .next s.afterOverflow)

/-- The state type has exactly seven values, none with code 111 (30_encoding.md R68), so no state and byte select row RSVD;
the row's body, kept from 40_process.md R93, clears and goes to Idle, whatever the rest of the state. That the row's
instruction is refused as `rowNotSelected` is the model's choice (log entry 4, DEDUCED; log entry 5, DESIGN CHOICE). -/
def Obligations.RsvdRecoversToIdle : Prop :=
  (∀ d : DecoderState, d.code ≠ 7 ∧
    (d = .idle ∨ d = .attn ∨ d = .start ∨ d = .addr ∨ d = .type ∨ d = .data ∨ d = .escape)) ∧
  ∀ (s : State) (b : Byte),
    decodeTW s.cfg (makeTW 7 b) = .feedRsvd b ∧
    selectedRow s b ≠ .rsvd ∧ exec (.feedRsvd b) s = .refused .rowNotSelected ∧
    (s.resetSeen = true → performRow .rsvd b s = .next (s.afterFeed .idle 0 s.buf .listening))

/-- 60_exceptions.md R141: the outcome of BufferOverflow, for both values of OVF_POLICY. -/
def Obligations.OverflowOutcomeFollowsPolicy : Prop :=
  Config.default.ovfPolicy = .hold ∧
  ∀ (s : State) (b : Byte), s.resetSeen = true → (s.state = .data ∨ s.state = .escape) →
    s.cursor = s.cfg.capacity →
    (s.cfg.ovfPolicy = .hold →
      exec (.feed b) s = .next (s.afterFeed s.state s.cursor s.buf .overflow)) ∧
    (s.cfg.ovfPolicy = .toIdle →
      exec (.feed b) s = .next (s.afterFeed .idle 0 s.buf .overflow))

/-- 60_exceptions.md R142: where BufferOverflow can be raised. -/
def Obligations.OverflowOnlyWhenFullInDataOrEscape : Prop :=
  ∀ (s t : State) (b : Byte), BlockInv s → exec (.feed b) s = .next t →
    (t.resCode = .overflow ↔ s.cursor = s.cfg.capacity ∧
      (selectedRow s b = .dataEtx ∨ selectedRow s b = .dataDle ∨ selectedRow s b = .dataAcc ∨
        selectedRow s b = .escLit)) ∧
    (s.state ≠ .data → s.state ≠ .escape → t.resCode ≠ .overflow ∧
      (s.state = .idle ∨ s.cursor ≤ 4))

/-- 40_process.md R98: COMPLETE is returned by DATA.ETX only, when its append succeeds, and the buffer then holds a raw
frame. -/
def Obligations.CompleteOnlyByDataEtx : Prop :=
  ∀ (s t : State) (b : Byte), BlockInv s → exec (.feed b) s = .next t →
    (t.resCode = .complete ↔ selectedRow s b = .dataEtx ∧ s.cursor < s.cfg.capacity) ∧
    (t.resCode = .complete → s.state = .data ∧ b = s.cfg.stop ∧ t.validBytes = s.validBytes ++ [s.cfg.stop] ∧
      6 ≤ t.cursor ∧ t.cursor ≤ t.cfg.capacity ∧
      t.validBytes.take 3 = [t.cfg.preamble, t.cfg.preamble, t.cfg.start] ∧
      t.validBytes.getLast? = some t.cfg.stop)

/-- 70_reset_and_hazards.md R163: under HOLD an overflow repeats, whatever is fed, until a RESET. First a sequence of FEEDs;
then, from the invariant, any transactions but RESET in any order: after them every FEED still answers OVERFLOW and changes
nothing else, and a RESET gives Idle. -/
def Obligations.HoldAnswersOverflowUntilReset : Prop :=
  ∀ s : State, s.resetSeen = true → s.cfg.ovfPolicy = .hold →
    (s.state = .data ∨ s.state = .escape) → s.cursor = s.cfg.capacity →
    (∀ bs : List Byte, ∃ t, feedAll bs s = .next t ∧ responses bs s = List.replicate bs.length .overflow ∧
      t.state = s.state ∧ t.cursor = s.cursor ∧ t.buf = s.buf ∧ t.cfg = s.cfg ∧ t.resetSeen = true ∧
      (bs ≠ [] → t.frameValid = false) ∧ (bs = [] → t = s) ∧
      ∃ u, exec .reset t = .next u ∧ u.state = .idle ∧ u.cursor = 0) ∧
    (BlockInv s → ∀ is : List Instr, .reset ∉ is →
      ((∀ i ∈ is, i = .nop ∨ (∃ b, i = .feed b) ∨ ∃ k, i = .readRaw k) → ∃ t, execAll is s = .next t) ∧
      ∀ t, execAll is s = .next t →
        t.state = s.state ∧ t.cursor = s.cursor ∧ t.buf = s.buf ∧ t.cfg = s.cfg ∧ t.resetSeen = true ∧
        t.frameValid = s.frameValid ∧ t.frameValid = false ∧
        (∀ b, exec (.feed b) t =
          .next { t with resValid := true, resCode := .overflow, out := .response .overflow }) ∧
        ∃ u, exec .reset t = .next u ∧ u.state = .idle ∧ u.cursor = 0)

/-- From Data and Escape an accepted STOP, an overflow under TO_IDLE and a RESET lead to Idle, and nothing else does; PREAMBLE
and START are data there (40_process.md R95). The clauses on TO_IDLE speak of every cursor at or above C: that an append
above C overflows, with the outcome of R141, is the model's reading (log entries 13 and 20, DEDUCED). -/
def Obligations.OnlyStopOverflowOrResetLeavesAFrame : Prop :=
  ∀ (s t : State) (i : Instr), s.cfg.wf = true → (s.state = .data ∨ s.state = .escape) →
    exec i s = .next t →
    (t.state = .idle →
      i = .reset ∨
      (s.cfg.ovfPolicy = .toIdle ∧ t.resCode = .overflow ∧ s.cfg.capacity ≤ s.cursor) ∨
      (s.state = .data ∧ (i = .feedDataEtx ∨ i = .feed s.cfg.stop) ∧ t.resCode = .complete)) ∧
    (t.state = .idle ∨ t.state = .data ∨ t.state = .escape) ∧
    ((i = .feed s.cfg.preamble ∨ i = .feed s.cfg.start) → s.cursor < s.cfg.capacity → t.state = .data) ∧
    (i = .reset → t.state = .idle) ∧
    (s.state = .data → i = .feed s.cfg.stop → s.cursor < s.cfg.capacity → t.state = .idle) ∧
    (s.cfg.ovfPolicy = .toIdle → (rowOf s i).isSome = true → s.cfg.capacity ≤ s.cursor → t.state = .idle)

/-- 40_process.md R94: a run of PREAMBLE bytes from Idle, and when a START after it starts a frame. -/
def Obligations.PreambleRunsCountModuloThree : Prop :=
  ∀ (s : State) (n : Nat), s.cfg.wf = true → s.resetSeen = true → s.state = .idle → 1 ≤ n →
    ∃ t, feedAll (List.replicate n s.cfg.preamble) s = .next t ∧
      t.validBytes = List.replicate (n % 3) s.cfg.preamble ∧
      (n % 3 = 0 → t.state = .idle ∧ t.cursor = 0) ∧
      (n % 3 = 1 → t.state = .attn ∧ t.cursor = 1) ∧
      (n % 3 = 2 → t.state = .start ∧ t.cursor = 2) ∧
      ∃ u, exec (.feed s.cfg.start) t = .next u ∧ (u.state = .addr ↔ n % 3 = 2)

/-- 40_process.md R96: responses and visible state are functions of the fed bytes and of what is visible before: stale
bytes, the response register and the model's own fields have no influence. -/
def Obligations.FeedIsAFunctionOfVisibleState : Prop :=
  ∀ (bs : List Byte) (s t : State), SameVisible s t →
    responses bs s = responses bs t ∧
    ∀ s', feedAll bs s = .next s' → ∃ t', feedAll bs t = .next t' ∧ SameVisible s' t'

/-- 40_process.md R97: bytes that never pass START.STX keep the block in Idle, Attn or Start. -/
def Obligations.NoStartSequenceNoFrame : Prop :=
  ∀ (s : State) (bs : List Byte), s.cfg.wf = true → s.resetSeen = true → s.state = .idle → s.cursor = 0 →
    ((∀ p q u, bs = p ++ s.cfg.start :: q → feedAll p s = .next u → u.state ≠ .start) →
      (∀ p q, bs = p ++ q → ∃ u, feedAll p s = .next u ∧ responses p s = List.replicate p.length .listening ∧
        (u.state = .idle ∨ u.state = .attn ∨ u.state = .start) ∧ u.cursor ≤ 2) ∧
      ∃ u, feedAll bs s = .next u ∧
        (u.cursor = 0 ∧ u.state = .idle ↔
          bs = [] ∨ bs.getLast? ≠ some s.cfg.preamble ∨
            (bs.reverse.takeWhile (· == s.cfg.preamble)).length % 3 = 0)) ∧
    (¬ [s.cfg.preamble, s.cfg.preamble, s.cfg.start] <:+: bs →
      ∀ p q u, bs = p ++ s.cfg.start :: q → feedAll p s = .next u → u.state ≠ .start)

/-! ### RESET and NOP -/

/-- 42_control.md R130: RESET writes its reset values and nothing else, in every state. The fields `resetSeen` and `out`
are the model's own (log entries 7, 10). -/
def Obligations.ResetWritesItsValues : Prop :=
  ∀ s : State, exec .reset s = .next
    { s with state := .idle, cursor := 0, frameValid := false, resValid := false, resCode := .listening,
             resetSeen := true, out := .nothing }

/-- 42_control.md R131: NOP drops `res_valid` and nothing else, and a view stays valid. The field `out` is the model's own
(log entry 7). -/
def Obligations.NopKeepsTheView : Prop :=
  decodeCW 0x000 = .ok .nop ∧
  ∀ s : State, exec .nop s = .next { s with resValid := false, out := .nothing } ∧
    (s.cfg.wf = true → s.frameValid = true →
      ∃ t, exec .nop s = .next t ∧ exec .viewAddr t = .next { t with out := .byte (s.byteAt 3) })

/-- 70_reset_and_hazards.md R160: the reset state; the bytes of the buffer are free values. -/
def Obligations.ResetStateValues : Prop :=
  State.reset = State.resetWith Config.default ∧
  ∀ c : Config, (State.resetWith c).state = .idle ∧ (State.resetWith c).cursor = 0 ∧
    (State.resetWith c).frameValid = false ∧ (State.resetWith c).resValid = false ∧
    (State.resetWith c).resCode = .listening ∧ (State.resetWith c).cfg = c ∧
    ∀ i, (State.resetWith c).byteAt i = Config.launchByte i

/-- RESET from any state whatever, a power-up state too, gives a block that meets the invariant and behaves as a fresh one
(42_control.md R130, 70_reset_and_hazards.md R162). -/
def Obligations.ResetFromAnyStateIsFresh : Prop :=
  ∀ s : State, s.cfg.wf = true → Memory.wf s.buf = true → Memory.below s.cfg.capacity s.buf = true →
    ∃ t, exec .reset s = .next t ∧ BlockInv t ∧ SameVisible t (State.resetWith s.cfg) ∧
      ∀ bs, responses bs t = responses bs (State.resetWith s.cfg)

/-- Before the first RESET a FEED is refused, and after a RESET every FEED answers (70_reset_and_hazards.md R161, R162; the
window is the model's field `resetSeen`, log entry 10). -/
def Obligations.FeedNeedsAReset : Prop :=
  ∀ (s : State) (b : Byte),
    (s.resetSeen = false → exec (.feed b) s = .refused .feedBeforeReset) ∧
    ∃ t, exec .reset s = .next t ∧ ∃ u, exec (.feed b) t = .next u

/-! ### The raw read and the view -/

/-- 41_view.md R111: a byte below the cursor, else a fresh draw; an index that names no byte gives a draw too. A draw is a
free value. -/
def Obligations.ReadRawBelowTheCursorOrADraw : Prop :=
  ∀ (s : State) (i : Index),
    (i.toNat < s.cursor → i.toNat < s.cfg.capacity →
      exec (.readRaw i) s = .next { s with out := .byte (s.byteAt i.toNat) }) ∧
    (s.cursor ≤ i.toNat ∨ s.cfg.capacity ≤ i.toNat →
      exec (.readRaw i) s = .next { s with draws := s.draws + 1, out := .byte (Config.freeByte s.draws) })

/-- 41_view.md R112: the address is the byte at index 3, raw. -/
def Obligations.ViewAddrReadsIndexThree : Prop :=
  ∀ s : State, s.cfg.wf = true → s.frameValid = true →
    exec .viewAddr s = .next { s with out := .byte (s.byteAt 3) }

/-- 41_view.md R113: the type byte at index 4 and its kind, for every type table. -/
def Obligations.ViewTypeReadsIndexFourAndItsKind : Prop :=
  ∀ s : State, s.cfg.wf = true → s.frameValid = true →
    ∃ k, exec .viewType s = .next { s with out := .typeKind (s.byteAt 4) k } ∧
      (∀ n, (s.byteAt 4, n) ∈ s.cfg.typeTable → k = .listed n) ∧
      ((∀ n, (s.byteAt 4, n) ∉ s.cfg.typeTable) → k = .unknown)

/-- 41_view.md R114 to R117, R119: when a frame is valid its raw data collapses without a byte past its end, VIEW_DLEN gives
the length and VIEW_DATA each byte, or none past the end. -/
def Obligations.ViewDataIsTheCollapsedRegion : Prop :=
  ∀ s : State, BlockInv s → s.frameValid = true →
    ∃ d, (∀ past, collapse s.cfg.escape past (s.bytesFrom 5 (s.cursor - 6)) = d) ∧ d.length ≤ s.cfg.capacity - 6 ∧
      exec .viewDlen s = .next { s with out := .length d.length } ∧
      ∀ k : Index, exec (.viewData k) s = .next { s with out := .data d[k.toNat]? }

/-- 41_view.md R110: without a valid frame every view transaction is refused. -/
def Obligations.ViewsRefusedWithoutAFrame : Prop :=
  ∀ (s : State) (k : Index), s.frameValid = false →
    exec .viewAddr s = .refused .viewWithoutFrame ∧ exec .viewType s = .refused .viewWithoutFrame ∧
    exec .viewDlen s = .refused .viewWithoutFrame ∧ exec (.viewData k) s = .refused .viewWithoutFrame

/-- 41_view.md R118: no read transaction writes the block's state. -/
def Obligations.ReadsWriteNoState : Prop :=
  ∀ (s t : State) (i : Index), ∀ r ∈ [Instr.readRaw i, .viewAddr, .viewType, .viewDlen, .viewData i],
    exec r s = .next t →
    t.state = s.state ∧ t.cursor = s.cursor ∧ t.buf = s.buf ∧ t.frameValid = s.frameValid ∧
    t.resValid = s.resValid ∧ t.resCode = s.resCode ∧ t.cfg = s.cfg ∧ t.resetSeen = s.resetSeen ∧
    t.inbox = s.inbox

/-- 70_reset_and_hazards.md R164: a FEED that does not complete a frame ends the view, an ignored byte too; a PREAMBLE fed
in Idle overwrites the first byte and resets the cursor. -/
def Obligations.ViewEndsAtTheNextFeed : Prop :=
  ∀ (s t : State) (b : Byte) (k : Index), exec (.feed b) s = .next t → s.frameValid = true → BlockInv s →
    exec .viewAddr t = .refused .viewWithoutFrame ∧ exec .viewType t = .refused .viewWithoutFrame ∧
    exec .viewDlen t = .refused .viewWithoutFrame ∧ exec (.viewData k) t = .refused .viewWithoutFrame ∧
    (b = s.cfg.preamble → t.cursor = 1 ∧ t.byteAt 0 = s.cfg.preamble)

/-- Collapsing undoes the transmitter's escaping, whatever the data (30_encoding.md R63, 41_view.md R115), and a frame's
length is the one R63 gives. -/
def Obligations.CollapseUndoesEscaping : Prop :=
  ∀ (c : Config) (a t : Byte) (d : List Byte), c.wf = true →
    (∀ past, collapse c.escape past (escapeData c d) = d) ∧
    (frameBytes c a t d).length =
      6 + d.length + d.countP (fun x => x == c.stop || x == c.escape || x == c.preamble)

/-- 41_view.md R120: the escape round trip. A frame of the transmitter's encoding, fed from Idle, completes on its last
byte, and the view gives back the address, the type with its kind, the length and every data byte. -/
def Obligations.EscapeRoundTrip : Prop :=
  ∀ (s : State) (a t : Byte) (d : List Byte), s.cfg.wf = true → s.resetSeen = true → s.state = .idle →
    (frameBytes s.cfg a t d).length ≤ s.cfg.capacity →
    ∃ u, feedAll (frameBytes s.cfg a t d) s = .next u ∧
      responses (frameBytes s.cfg a t d) s =
        List.replicate ((frameBytes s.cfg a t d).length - 1) .listening ++ [.complete] ∧
      exec .viewAddr u = .next { u with out := .byte a } ∧
      exec .viewType u = .next { u with out := .typeKind t (typeKind s.cfg t) } ∧
      exec .viewDlen u = .next { u with out := .length d.length } ∧
      ∀ k : Index, exec (.viewData k) u = .next { u with out := .data d[k.toNat]? }

/-! ### Frames over all instructions -/

/-- 10_state.md R24: `frame_valid` says whether the last FEED returned COMPLETE and no RESET has happened since. -/
def Obligations.FrameValidFollowsFeedAndReset : Prop :=
  ∀ (s t : State) (i : Instr), exec i s = .next t →
    ((rowOf s i).isSome = true → t.frameValid = decide (t.resCode = .complete)) ∧
    (i = .reset → t.frameValid = false) ∧
    ((rowOf s i).isSome = false → i ≠ .reset → t.frameValid = s.frameValid)

/-- Every byte of the buffer is unchanged except the one an append stores, which is the fed byte at the cursor the append
sees (20_memory.md R41 to R45). -/
def Obligations.OnlyTheAppendedByteChanges : Prop :=
  ∀ (s t : State) (i : Instr), exec i s = .next t →
    (∀ a, storeIndex i s ≠ some a → t.byteAt a = s.byteAt a) ∧
    (∀ a, storeIndex i s = some a → t.byteAt a = rowByte s i) ∧
    (storeIndex i s = none → t.buf = s.buf)

/-- 20_memory.md R45, 42_control.md R133: only FEED (with its rows) and RESET write the state, the cursor or the buffer, and
nothing writes the configuration (10_state.md R29). -/
def Obligations.OnlyFeedAndResetWriteTheBlock : Prop :=
  ∀ (s t : State) (i : Instr), exec i s = .next t →
    t.cfg = s.cfg ∧ t.inbox = s.inbox ∧
    ((rowOf s i).isSome = false → i ≠ .reset →
      t.state = s.state ∧ t.cursor = s.cursor ∧ t.buf = s.buf ∧ t.resCode = s.resCode) ∧
    (i = .reset → t.buf = s.buf)

/-- In every state, of the invariant or not, every instruction answers a next state, except the three refusals: a view
without a frame (41_view.md R110), a FEED before the first RESET (70_reset_and_hazards.md R161), and a row that is not
selected (30_encoding.md R62). The last two are the model's (log entries 5, 10). -/
def Obligations.ExecAnswersOrRefusesByName : Prop :=
  ∀ (s : State) (i : Instr),
    (∃ t, exec i s = .next t) ∨
    (exec i s = .refused .viewWithoutFrame ∧ s.frameValid = false ∧
      (i = .viewAddr ∨ i = .viewType ∨ i = .viewDlen ∨ ∃ k, i = .viewData k)) ∨
    (exec i s = .refused .feedBeforeReset ∧ s.resetSeen = false ∧ rowOf s i = some (selectedRow s (rowByte s i))) ∨
    (exec i s = .refused .rowNotSelected ∧ ∃ r, rowOf s i = some r ∧ selectedRow s (rowByte s i) ≠ r)

/-! ### The buffer primitives -/

/-- 20_memory.md R42 and R43, 10_state.md R30: Append refuses at C (and beyond: log entry 13, DEDUCED) and writes nothing,
else it writes at the cursor and increments it without wrapping; Clear resets the cursor only. -/
def Obligations.AppendChecksCapacityFirst : Prop :=
  ∀ (s : State) (b : Byte), s.cfg.wf = true →
    (s.cfg.capacity ≤ s.cursor → append b s = .overflow) ∧
    (s.cursor < s.cfg.capacity →
      append b s = .ok { s with buf := s.buf.write s.cursor b, cursor := s.cursor + 1 }) ∧
    clear s = { s with cursor := 0 } ∧
    append b (clear s) = .ok { s with buf := s.buf.write 0 b, cursor := 1 }

/-- 20_memory.md R41: a write is read back, changes no other byte, keeps the buffer's canonical form, and no index at or
above C can be read or written. -/
def Obligations.WriteIsReadBackAndChangesNoOtherByte : Prop :=
  ∀ (s : State) (i : Nat) (v : Byte),
    (i < s.cfg.capacity → memRead i s = some (s.byteAt i) ∧
      ∃ t, memWrite i v s = some t ∧ memRead i t = some v ∧ (∀ j, j ≠ i → memRead j t = memRead j s) ∧
        (Memory.wf s.buf = true → Memory.wf t.buf = true)) ∧
    (s.cfg.capacity ≤ i → memRead i s = none ∧ memWrite i v s = none)

/-! ### Invariants -/

/-- The invariant holds at reset, at every well-formed configuration and at the default (10_state.md R31). -/
def Obligations.ResetMeetsInv : Prop :=
  BlockInv State.reset ∧ ∀ c : Config, c.wf = true → BlockInv (State.resetWith c)

/-- Every step keeps the invariant, from every state that meets it (10_state.md R31 to R33, R22, R24). -/
def Obligations.StepKeepsInv : Prop :=
  ∀ s t : State, BlockInv s → step s = .next t → BlockInv t

/-- 10_state.md R31: the table of reachable states. -/
def Obligations.ReachableStatesHaveTheirShape : Prop :=
  ∀ s : State, Reachable s →
    s.state.code ≠ 7 ∧ s.cursor ≤ s.cfg.capacity ∧
    (s.state = .idle → s.cursor = 0 ∨ (6 ≤ s.cursor ∧ isFrame s.cfg s.validBytes = true)) ∧
    (s.state = .attn → s.cursor = 1 ∧ s.byteAt 0 = s.cfg.preamble) ∧
    (s.state = .start → s.cursor = 2 ∧ s.byteAt 0 = s.cfg.preamble ∧ s.byteAt 1 = s.cfg.preamble) ∧
    (s.state = .addr → s.cursor = 3) ∧ (s.state = .type → s.cursor = 4) ∧
    (s.state = .data → 5 ≤ s.cursor) ∧
    (s.state = .escape → 6 ≤ s.cursor ∧ s.byteAt (s.cursor - 1) = s.cfg.escape) ∧
    (s.state = .addr ∨ s.state = .type ∨ s.state = .data ∨ s.state = .escape →
      s.byteAt 0 = s.cfg.preamble ∧ s.byteAt 1 = s.cfg.preamble ∧ s.byteAt 2 = s.cfg.start)

/-- 10_state.md R32: what a valid frame implies, in every reachable state. -/
def Obligations.ValidFrameIsARawFrame : Prop :=
  ∀ s : State, Reachable s → s.frameValid = true →
    s.state = .idle ∧ 6 ≤ s.cursor ∧ s.cursor ≤ s.cfg.capacity ∧
    s.byteAt (s.cursor - 1) = s.cfg.stop ∧ isFrame s.cfg s.validBytes = true

/-- The sizes of 00_scope.md R7: of the buffer, of a complete frame, and of its collapsed payload. -/
def Obligations.FrameSizesAreBounded : Prop :=
  Config.default.capacity * 8 = 2064 ∧
  ∀ s : State, BlockInv s → s.frameValid = true →
    6 ≤ s.cursor ∧ s.cursor ≤ s.cfg.capacity ∧
    (logicalData s).length ≤ s.cfg.capacity - 6 ∧ s.cursor - 6 ≤ 2 * (logicalData s).length

/-! ### Ports and stimulus -/

/-- 42_control.md R132: reset wins over a byte presented at the same edge. -/
def Obligations.ResetWinsAtTheEdge : Prop :=
  ∀ (p : PortsIn) (s : State), p.rst = true → p.inValid = true →
    clockEdge p s = exec .reset s ∧ ∃ t, clockEdge p s = .next t ∧ t.resValid = false ∧ t.buf = s.buf ∧ t.cursor = 0

/-- The clock edge of 30_encoding.md R76: FEED when a byte is valid, else an idle cycle; the outputs of a cycle show the
state from before its edge (20_memory.md R52), and a FEED's response shows in the next cycle. -/
def Obligations.EdgeFeedsAndAnswersNextCycle : Prop :=
  ∀ (n : Nat) (p q : PortsIn) (s : State), p.rst = false →
    (portCycle n p s).1 = outputs n p s ∧
    (p.inValid = true → (portCycle n p s).2 = exec (.feed p.inByte) s) ∧
    (p.inValid = false → (portCycle n p s).2 = exec .nop s) ∧
    (∀ t, (portCycle n p s).2 = .next t →
      (outputs n q t).resValid = p.inValid ∧ (outputs n q t).resCode = resCodeBits t.resCode ∧
      (outputs n q t).inReady = true)

/-- The output ports show what the read transactions return (30_encoding.md R66, R75, R76). -/
def Obligations.PortsShowTheReadTransactions : Prop :=
  ∀ (n : Nat) (p : PortsIn) (s : State), BlockInv s →
    (outputs n p s).stateO = s.state.code ∧ (outputs n p s).cursorO = s.cursor ∧
    (outputs n p s).frameValidO = s.frameValid ∧
    (p.rawIdx.toNat < s.cursor → exec (.readRaw p.rawIdx) s = .next { s with out := .byte (outputs n p s).rawByte }) ∧
    (s.frameValid = true →
      exec .viewAddr s = .next { s with out := .byte (outputs n p s).viewAddr } ∧
      (∃ k, exec .viewType s = .next { s with out := .typeKind (outputs n p s).viewType k } ∧
        (outputs n p s).viewKind = kindCode k) ∧
      exec .viewDlen s = .next { s with out := .length (outputs n p s).viewDlen } ∧
      exec (.viewData p.viewK) s = .next { s with
        out := .data (if (outputs n p s).viewDvalid then some (outputs n p s).viewDbyte else none) }) ∧
    (s.frameValid = false → (outputs n p s).viewDvalid = false)

/-- The command words of every stimulus line, as 30_encoding.md R72 lists them; `frame` has the words of the FEEDs of the
transmitter's encoding (R73, with its example); and the words decode, in order, to the line's transactions. -/
def Obligations.StimulusWordsDecodeToTheirTransactions : Prop :=
  ∀ c : Config,
    Stim.nop.words c = [0x000] ∧
    (∀ bs : List Byte, (Stim.feed bs).words c = bs.map fun b => 0x200 ||| b.setWidth 12) ∧
    (∀ (b : Byte) (n : Nat), (Stim.feedRun b n).words c = List.replicate n (0x200 ||| b.setWidth 12)) ∧
    Stim.reset.words c = [0x400] ∧
    (∀ i : Index, (Stim.readRaw i).words c = [0x600 ||| i.setWidth 12]) ∧
    Stim.viewAddr.words c = [0x800] ∧ Stim.viewType.words c = [0xA00] ∧ Stim.viewDlen.words c = [0xC00] ∧
    (∀ k : Index, (Stim.viewData k).words c = [0xE00 ||| k.setWidth 12]) ∧
    (∀ (a t : Byte) (d : List Byte),
      (Stim.frame a t d).words c = (frameBytes c a t d).map fun b => 0x200 ||| b.setWidth 12) ∧
    (Stim.frame 0x41 0x50 []).words Config.default = [0x2FF, 0x2FF, 0x202, 0x241, 0x250, 0x203] ∧
    ∀ l : Stim, (l.words c).map decodeCW = (l.instrs c).map .ok
end

