-- ==== Sys2Proof/Laws/State.lean ====
section
/-! SUPPORT. One lemma per field per update of the state, so that no later proof unfolds a record update. -/

namespace Sys2Proof.Machine

section
variable (n : Nat) (d : DecoderState) (r : Res) (y : Reply) (s : State)

@[simp] theorem setCursor_cfg : (setCursor n s).cfg = s.cfg := rfl
@[simp] theorem setCursor_state : (setCursor n s).state = s.state := rfl
@[simp] theorem setCursor_cursor : (setCursor n s).cursor = n % 2 ^ s.cfg.cursorW := rfl
@[simp] theorem setCursor_buf : (setCursor n s).buf = s.buf := rfl
@[simp] theorem setCursor_frameValid : (setCursor n s).frameValid = s.frameValid := rfl
@[simp] theorem setCursor_resValid : (setCursor n s).resValid = s.resValid := rfl
@[simp] theorem setCursor_resCode : (setCursor n s).resCode = s.resCode := rfl
@[simp] theorem setCursor_resetSeen : (setCursor n s).resetSeen = s.resetSeen := rfl
@[simp] theorem setCursor_draws : (setCursor n s).draws = s.draws := rfl
@[simp] theorem setCursor_inbox : (setCursor n s).inbox = s.inbox := rfl
@[simp] theorem setCursor_out : (setCursor n s).out = s.out := rfl

@[simp] theorem setState_cfg : (setState d s).cfg = s.cfg := rfl
@[simp] theorem setState_state : (setState d s).state = d := rfl
@[simp] theorem setState_cursor : (setState d s).cursor = s.cursor := rfl
@[simp] theorem setState_buf : (setState d s).buf = s.buf := rfl
@[simp] theorem setState_frameValid : (setState d s).frameValid = s.frameValid := rfl
@[simp] theorem setState_resValid : (setState d s).resValid = s.resValid := rfl
@[simp] theorem setState_resCode : (setState d s).resCode = s.resCode := rfl
@[simp] theorem setState_resetSeen : (setState d s).resetSeen = s.resetSeen := rfl
@[simp] theorem setState_draws : (setState d s).draws = s.draws := rfl
@[simp] theorem setState_inbox : (setState d s).inbox = s.inbox := rfl
@[simp] theorem setState_out : (setState d s).out = s.out := rfl

@[simp] theorem clear_cfg : (clear s).cfg = s.cfg := rfl
@[simp] theorem clear_state : (clear s).state = s.state := rfl
@[simp] theorem clear_cursor : (clear s).cursor = 0 := Nat.zero_mod _
@[simp] theorem clear_buf : (clear s).buf = s.buf := rfl
@[simp] theorem clear_frameValid : (clear s).frameValid = s.frameValid := rfl
@[simp] theorem clear_resValid : (clear s).resValid = s.resValid := rfl
@[simp] theorem clear_resCode : (clear s).resCode = s.resCode := rfl
@[simp] theorem clear_resetSeen : (clear s).resetSeen = s.resetSeen := rfl
@[simp] theorem clear_draws : (clear s).draws = s.draws := rfl
@[simp] theorem clear_inbox : (clear s).inbox = s.inbox := rfl
@[simp] theorem clear_out : (clear s).out = s.out := rfl

@[simp] theorem finishFeed_cfg : (finishFeed r s).cfg = s.cfg := rfl
@[simp] theorem finishFeed_state : (finishFeed r s).state = s.state := rfl
@[simp] theorem finishFeed_cursor : (finishFeed r s).cursor = s.cursor := rfl
@[simp] theorem finishFeed_buf : (finishFeed r s).buf = s.buf := rfl
@[simp] theorem finishFeed_frameValid : (finishFeed r s).frameValid = decide (r = .complete) := rfl
@[simp] theorem finishFeed_resValid : (finishFeed r s).resValid = true := rfl
@[simp] theorem finishFeed_resCode : (finishFeed r s).resCode = r := rfl
@[simp] theorem finishFeed_resetSeen : (finishFeed r s).resetSeen = s.resetSeen := rfl
@[simp] theorem finishFeed_draws : (finishFeed r s).draws = s.draws := rfl
@[simp] theorem finishFeed_inbox : (finishFeed r s).inbox = s.inbox := rfl
@[simp] theorem finishFeed_out : (finishFeed r s).out = .response r := rfl

@[simp] theorem dropResValid_cfg : (dropResValid s).cfg = s.cfg := rfl
@[simp] theorem dropResValid_state : (dropResValid s).state = s.state := rfl
@[simp] theorem dropResValid_cursor : (dropResValid s).cursor = s.cursor := rfl
@[simp] theorem dropResValid_buf : (dropResValid s).buf = s.buf := rfl
@[simp] theorem dropResValid_frameValid : (dropResValid s).frameValid = s.frameValid := rfl
@[simp] theorem dropResValid_resValid : (dropResValid s).resValid = false := rfl
@[simp] theorem dropResValid_resCode : (dropResValid s).resCode = s.resCode := rfl
@[simp] theorem dropResValid_resetSeen : (dropResValid s).resetSeen = s.resetSeen := rfl

@[simp] theorem clearFlags_cfg : (clearFlags s).cfg = s.cfg := rfl
@[simp] theorem clearFlags_state : (clearFlags s).state = s.state := rfl
@[simp] theorem clearFlags_cursor : (clearFlags s).cursor = s.cursor := rfl
@[simp] theorem clearFlags_buf : (clearFlags s).buf = s.buf := rfl
@[simp] theorem clearFlags_frameValid : (clearFlags s).frameValid = false := rfl
@[simp] theorem clearFlags_resValid : (clearFlags s).resValid = false := rfl
@[simp] theorem clearFlags_resCode : (clearFlags s).resCode = .listening := rfl

@[simp] theorem reply_cfg : (reply y s).cfg = s.cfg := rfl
@[simp] theorem reply_state : (reply y s).state = s.state := rfl
@[simp] theorem reply_cursor : (reply y s).cursor = s.cursor := rfl
@[simp] theorem reply_buf : (reply y s).buf = s.buf := rfl
@[simp] theorem reply_frameValid : (reply y s).frameValid = s.frameValid := rfl
@[simp] theorem reply_resValid : (reply y s).resValid = s.resValid := rfl
@[simp] theorem reply_resCode : (reply y s).resCode = s.resCode := rfl
@[simp] theorem reply_resetSeen : (reply y s).resetSeen = s.resetSeen := rfl
@[simp] theorem reply_draws : (reply y s).draws = s.draws := rfl
@[simp] theorem reply_inbox : (reply y s).inbox = s.inbox := rfl
@[simp] theorem reply_out : (reply y s).out = y := rfl

theorem takeOverflow_hold (h : s.cfg.ovfPolicy = .hold) : takeOverflow s = s := by
  simp [takeOverflow, h]

theorem takeOverflow_toIdle (h : s.cfg.ovfPolicy = .toIdle) : takeOverflow s = setState .idle (clear s) := by
  simp [takeOverflow, h]

@[simp] theorem takeOverflow_cfg : (takeOverflow s).cfg = s.cfg := by unfold takeOverflow; split <;> rfl
@[simp] theorem takeOverflow_buf : (takeOverflow s).buf = s.buf := by unfold takeOverflow; split <;> rfl
@[simp] theorem takeOverflow_resetSeen : (takeOverflow s).resetSeen = s.resetSeen := by
  unfold takeOverflow; split <;> rfl
@[simp] theorem takeOverflow_draws : (takeOverflow s).draws = s.draws := by unfold takeOverflow; split <;> rfl
@[simp] theorem takeOverflow_inbox : (takeOverflow s).inbox = s.inbox := by unfold takeOverflow; split <;> rfl

end

/-! ### Codes -/

@[simp] theorem DecoderState.ofCode_code (d : DecoderState) : DecoderState.ofCode d.code = some d := by
  cases d <;> rfl

/-- A code is a state's, or it is the reserved one (30_encoding.md R68). -/
theorem DecoderState.code_cases (w : BitVec 3) : (∃ d : DecoderState, d.code = w) ∨ w = 7 := by
  have h : ∀ v : BitVec 3, (DecoderState.ofCode v).map DecoderState.code = some v ∨ v = 7 := by decide
  rcases h w with h | h
  · obtain ⟨d, -, hd⟩ := Option.map_eq_some_iff.1 h; exact .inl ⟨d, hd⟩
  · exact .inr h

theorem DecoderState.code_ne_reserved (d : DecoderState) : d.code ≠ 7 := by cases d <;> decide

theorem DecoderState.code_injective {a b : DecoderState} (h : a.code = b.code) : a = b := by
  rw [← Option.some_inj, ← DecoderState.ofCode_code a, ← DecoderState.ofCode_code b, h]

end Sys2Proof.Machine
end

