-- ==== Sys2Proof/Laws/Decode.lean ====
section
/-! SUPPORT. Byte classes, the fields of transition and command words, and which row each state and byte selects. -/

namespace Sys2Proof

/-! ### Well-formed configurations -/

theorem Config.wf_iff (c : Config) : c.wf = true ↔
    c.distinct = true ∧ 6 ≤ c.capacity ∧ c.capacity ≤ 2 ^ c.cursorW - 1 ∧ c.tableOk = true := by
  simp [Config.wf, and_assoc]

theorem Config.wf_distinct {c : Config} (h : c.wf = true) :
    c.preamble ≠ c.start ∧ c.preamble ≠ c.stop ∧ c.preamble ≠ c.escape ∧ c.start ≠ c.stop ∧ c.start ≠ c.escape ∧
    c.stop ≠ c.escape := by
  have := ((Config.wf_iff c).1 h).1
  simpa [Config.distinct, and_assoc] using this

theorem Config.wf_capacity {c : Config} (h : c.wf = true) : 6 ≤ c.capacity := ((Config.wf_iff c).1 h).2.1

theorem Config.wf_lt {c : Config} (h : c.wf = true) {n : Nat} (hn : n ≤ c.capacity) : n < 2 ^ c.cursorW := by
  have h1 := ((Config.wf_iff c).1 h).2.2.1
  have h2 : 0 < 2 ^ c.cursorW := Nat.two_pow_pos _
  omega

/-- A cursor value of the invariant fits its register. -/
theorem Config.wf_mod {c : Config} (h : c.wf = true) {n : Nat} (hn : n ≤ c.capacity) : n % 2 ^ c.cursorW = n :=
  Nat.mod_eq_of_lt (Config.wf_lt h hn)

theorem Config.default_wf : Config.default.wf = true := by decide

/-! ### Byte classes -/

theorem classOf_pre_iff (c : Config) (b : Byte) : classOf c b = .pre ↔ b = c.preamble := by
  unfold classOf; split_ifs <;> simp_all

theorem classOf_stx_iff {c : Config} (h : c.wf = true) (b : Byte) : classOf c b = .stx ↔ b = c.start := by
  have := Config.wf_distinct h
  unfold classOf; split_ifs <;> simp_all

theorem classOf_etx_iff {c : Config} (h : c.wf = true) (b : Byte) : classOf c b = .etx ↔ b = c.stop := by
  obtain ⟨-, h2, -, h4, -⟩ := Config.wf_distinct h
  unfold classOf
  constructor
  · split_ifs <;> simp_all
  · rintro rfl; simp [Ne.symm h2, Ne.symm h4]

theorem classOf_dle_iff {c : Config} (h : c.wf = true) (b : Byte) : classOf c b = .dle ↔ b = c.escape := by
  obtain ⟨-, -, h3, -, h5, h6⟩ := Config.wf_distinct h
  unfold classOf
  constructor
  · split_ifs <;> simp_all
  · rintro rfl; simp [Ne.symm h3, Ne.symm h5, Ne.symm h6]

/-! ### Fields -/

theorem getLsbD_makeTW (s : BitVec 3) (b : Byte) (i : Nat) :
    (makeTW s b).getLsbD i = if i < 8 then b.getLsbD i else s.getLsbD (i - 8) :=
  BitVec.getLsbD_append

theorem getLsbD_makeCW (op : BitVec 3) (a : Index) (i : Nat) :
    (makeCW op a).getLsbD i = if i < 9 then a.getLsbD i else op.getLsbD (i - 9) :=
  BitVec.getLsbD_append

/-- A byte as the argument of a FEED, `arg[8]` being 0. -/
theorem getLsbD_feedArg (b : Byte) (i : Nat) : (0#1 ++ b : Index).getLsbD i = (decide (i < 8) && b.getLsbD i) := by
  rw [BitVec.getLsbD_append (x := 0#1) (y := b)]
  by_cases h : i < 8 <;> simp [h]

@[simp] theorem twState_makeTW (s : BitVec 3) (b : Byte) : twState (makeTW s b) = s := by
  apply BitVec.eq_of_getLsbD_eq; intro i hi
  simp [twState, getLsbD_makeTW, hi]

@[simp] theorem twByte_makeTW (s : BitVec 3) (b : Byte) : twByte (makeTW s b) = b := by
  apply BitVec.eq_of_getLsbD_eq; intro i hi
  simp [twByte, getLsbD_makeTW, hi]

@[simp] theorem makeTW_fields (w : TransitionWord) : makeTW (twState w) (twByte w) = w := by
  apply BitVec.eq_of_getLsbD_eq; intro i hi
  rw [getLsbD_makeTW]
  by_cases h : i < 8
  · simp [twByte, h]
  · simp [twState, h, show i - 8 < 3 by omega, show 8 + (i - 8) = i by omega]

@[simp] theorem cwOp_makeCW (op : BitVec 3) (a : Index) : cwOp (makeCW op a) = op := by
  apply BitVec.eq_of_getLsbD_eq; intro i hi
  simp [cwOp, getLsbD_makeCW, hi]

@[simp] theorem cwArg_makeCW (op : BitVec 3) (a : Index) : cwArg (makeCW op a) = a := by
  apply BitVec.eq_of_getLsbD_eq; intro i hi
  simp [cwArg, getLsbD_makeCW, hi]

@[simp] theorem makeCW_fields (w : CommandWord) : makeCW (cwOp w) (cwArg w) = w := by
  apply BitVec.eq_of_getLsbD_eq; intro i hi
  rw [getLsbD_makeCW]
  by_cases h : i < 9
  · simp [cwArg, h]
  · simp [cwOp, h, show i - 9 < 3 by omega, show 9 + (i - 9) = i by omega]

@[simp] theorem cwByte_feed (op : BitVec 3) (b : Byte) : cwByte (makeCW op (0#1 ++ b)) = b := by
  apply BitVec.eq_of_getLsbD_eq; intro i hi
  simp only [cwByte, BitVec.getLsbD_extractLsb', getLsbD_makeCW, getLsbD_feedArg]
  simp [hi, show i < 9 by omega]

@[simp] theorem cwArgBit8_feed (op : BitVec 3) (b : Byte) : cwArgBit8 (makeCW op (0#1 ++ b)) = 0 := by
  apply BitVec.eq_of_getLsbD_eq; intro i hi
  obtain rfl : i = 0 := by omega
  simp only [cwArgBit8, BitVec.getLsbD_extractLsb', getLsbD_makeCW, getLsbD_feedArg]
  simp

/-- The argument of a word whose bit 8 is 0 is its byte. -/
theorem cwArg_of_bit8 {w : CommandWord} (h : cwArgBit8 w = 0) : (0#1 ++ cwByte w : Index) = cwArg w := by
  have h0 : w.getLsbD 8 = false := by
    have := congrArg (fun v : BitVec 1 => v.getLsbD 0) h
    simpa [cwArgBit8, BitVec.getLsbD_extractLsb'] using this
  apply BitVec.eq_of_getLsbD_eq; intro i hi
  rw [getLsbD_feedArg]
  by_cases h8 : i < 8
  · simp [cwByte, cwArg, h8, hi]
  · obtain rfl : i = 8 := by omega
    simp only [cwArg, BitVec.getLsbD_extractLsb', Nat.zero_add, h0]
    simp

/-! ### Which row -/

/-- The row of a state register and a byte class. -/
def rowFor : Machine.DecoderState → ByteClass → Row
  | .idle, .pre => .idlePre
  | .idle, _ => .idleIgn
  | .attn, .pre => .attnPre
  | .attn, _ => .attnAbort
  | .start, .stx => .startStx
  | .start, _ => .startAbort
  | .addr, _ => .addrAcc
  | .type, _ => .typeAcc
  | .data, .etx => .dataEtx
  | .data, .dle => .dataDle
  | .data, _ => .dataAcc
  | .escape, _ => .escLit

theorem decodeRow_code (c : Config) (r : Machine.DecoderState) (b : Byte) :
    decodeRow c (makeTW r.code b) = rowFor r (classOf c b) := by
  simp only [decodeRow, twState_makeTW, twByte_makeTW]
  cases r <;> cases classOf c b <;> rfl

/-- Every word of the reserved code decodes to row RSVD (30_encoding.md R62). -/
theorem decodeRow_reserved (c : Config) {w : TransitionWord} (h : twState w = 7) : decodeRow c w = .rsvd := by
  simp [decodeRow, h]

/-- The state code of a row (30_encoding.md R62, the column `s`). -/
def Row.stateCode : Row → BitVec 3
  | .idlePre => 0
  | .idleIgn => 0
  | .attnPre => 1
  | .attnAbort => 1
  | .startStx => 2
  | .startAbort => 2
  | .addrAcc => 3
  | .typeAcc => 4
  | .dataEtx => 5
  | .dataDle => 5
  | .dataAcc => 5
  | .escLit => 6
  | .rsvd => 7

@[simp] theorem stateCode_rowFor (r : Machine.DecoderState) (k : ByteClass) : (rowFor r k).stateCode = r.code := by
  cases r <;> cases k <;> rfl

/-- A word's row names the word's own state. -/
@[simp] theorem stateCode_decodeRow (c : Config) (w : TransitionWord) : (decodeRow c w).stateCode = twState w := by
  rcases Machine.DecoderState.code_cases (twState w) with ⟨d, hd⟩ | h
  · have := decodeRow_code c d (twByte w)
    rw [hd, makeTW_fields] at this
    rw [this, stateCode_rowFor, hd]
  · rw [decodeRow_reserved c h, h]; rfl

/-- The byte a class stands for, where it stands for one. -/
theorem byte_of_class (c : Config) (b : Byte) :
    (classOf c b = .pre → c.preamble = b) ∧ (classOf c b = .stx → c.start = b) ∧ (classOf c b = .etx → c.stop = b) ∧
    (classOf c b = .dle → c.escape = b) := by
  unfold classOf; split_ifs <;> simp_all

namespace Machine

theorem selectedRow_eq (s : State) (b : Byte) : selectedRow s b = rowFor s.state (classOf s.cfg b) :=
  decodeRow_code s.cfg s.state b

/-- No state selects row RSVD (30_encoding.md R68). -/
theorem selectedRow_ne_rsvd (s : State) (b : Byte) : selectedRow s b ≠ .rsvd := by
  rw [selectedRow_eq]; cases s.state <;> cases classOf s.cfg b <;> simp [rowFor]

@[simp] theorem transitionWord_byte (s : State) (b : Byte) : twByte (transitionWord s b) = b := twByte_makeTW _ _

@[simp] theorem transitionWord_state (s : State) (b : Byte) : twState (transitionWord s b) = s.state.code :=
  twState_makeTW _ _

end Machine

end Sys2Proof
end

