-- ==== Sys2Proof/Laws/Memory.lean ====
section
/-! SUPPORT. The buffer: read after write, the canonical form, and the bytes below an index. -/

namespace Sys2Proof.Machine

@[simp] theorem Memory.read_write_same (m : Memory) (i : Nat) (b : Byte) : (Memory.write m i b).read i = some b := by
  induction m with
  | nil => simp [Memory.write, Memory.read]
  | cons e m ih =>
    obtain ⟨a, v⟩ := e
    by_cases h : i < a
    · simp [Memory.write, Memory.read, h]
    · by_cases h' : i = a
      · simp [Memory.write, Memory.read, h']
      · simp [Memory.write, Memory.read, h, h', Ne.symm h', ih]

theorem Memory.read_write_other (m : Memory) {i j : Nat} (b : Byte) (h : j ≠ i) :
    (Memory.write m i b).read j = Memory.read m j := by
  induction m with
  | nil => simp [Memory.write, Memory.read, Ne.symm h]
  | cons e m ih =>
    obtain ⟨a, v⟩ := e
    by_cases h1 : i < a
    · simp [Memory.write, Memory.read, h1, Ne.symm h]
    · by_cases h2 : i = a
      · subst h2; simp [Memory.write, Memory.read, Ne.symm h]
      · simp only [Memory.write, h1, h2, if_false, Memory.read, ih]

/-- A write keeps the canonical form, from any lower bound at or below the index. -/
theorem Memory.risingFrom_write {lo i : Nat} (m : Memory) (b : Byte) (hm : Memory.risingFrom lo m = true) (hi : lo ≤ i) :
    Memory.risingFrom lo (Memory.write m i b) = true := by
  induction m generalizing lo with
  | nil => simp [Memory.write, Memory.risingFrom, hi]
  | cons e m ih =>
    obtain ⟨a, v⟩ := e
    simp only [Memory.risingFrom, Bool.and_eq_true, decide_eq_true_eq] at hm
    by_cases h1 : i < a
    · simp only [Memory.write, h1, if_true, Memory.risingFrom, Bool.and_eq_true, decide_eq_true_eq]
      exact ⟨hi, by omega, hm.2⟩
    · by_cases h2 : i = a
      · subst h2; simp [Memory.write, Memory.risingFrom, hm.1, hm.2]
      · simp only [Memory.write, h1, h2, if_false, Memory.risingFrom, Bool.and_eq_true, decide_eq_true_eq]
        exact ⟨hm.1, ih hm.2 (by omega)⟩

theorem Memory.wf_write (m : Memory) (i : Nat) (b : Byte) (hm : Memory.wf m = true) :
    Memory.wf (Memory.write m i b) = true :=
  Memory.risingFrom_write m b hm (Nat.zero_le i)

theorem Memory.below_write {n i : Nat} (m : Memory) (b : Byte) (hm : Memory.below n m = true) (hi : i < n) :
    Memory.below n (Memory.write m i b) = true := by
  induction m with
  | nil => simp [Memory.write, Memory.below, hi]
  | cons e m ih =>
    obtain ⟨a, v⟩ := e
    have hm' : a < n ∧ Memory.below n m = true := by simpa [Memory.below] using hm
    by_cases h1 : i < a
    · simp only [Memory.write, h1, if_true]; simpa [Memory.below, hi] using hm'
    · by_cases h2 : i = a
      · subst h2; simp only [Memory.write, h1, if_false, if_true]; simpa [Memory.below] using hm'
      · have := ih hm'.2
        simp only [Memory.write, h1, h2, if_false]
        simpa [Memory.below, hm'.1] using this

/-! ### Reading bytes -/

theorem State.byteAt_congr {s t : State} (h : s.buf = t.buf) (i : Nat) : s.byteAt i = t.byteAt i := by
  simp [State.byteAt, h]

theorem State.byteAt_write_same {s t : State} {i : Nat} {b : Byte} (h : t.buf = s.buf.write i b) :
    t.byteAt i = b := by
  simp [State.byteAt, h]

theorem State.byteAt_write_other {s t : State} {i j : Nat} {b : Byte} (h : t.buf = s.buf.write i b) (hj : j ≠ i) :
    t.byteAt j = s.byteAt j := by
  simp [State.byteAt, h, Memory.read_write_other _ _ hj]

@[simp] theorem State.length_bytesFrom (s : State) (i n : Nat) : (s.bytesFrom i n).length = n := by
  induction n generalizing i with
  | zero => rfl
  | succ n ih => simp [State.bytesFrom, ih]

theorem State.getElem?_bytesFrom (s : State) {i n k : Nat} (h : k < n) :
    (s.bytesFrom i n)[k]? = some (s.byteAt (i + k)) := by
  induction n generalizing i k with
  | zero => omega
  | succ n ih =>
    cases k with
    | zero => simp [State.bytesFrom]
    | succ k => simp [State.bytesFrom, ih (Nat.lt_of_succ_lt_succ h)]; congr 1; omega

/-- Two states that agree on the bytes of a range show the same bytes there. -/
theorem State.bytesFrom_congr {s t : State} {i n : Nat} (h : ∀ k, i ≤ k → k < i + n → s.byteAt k = t.byteAt k) :
    s.bytesFrom i n = t.bytesFrom i n := by
  induction n generalizing i with
  | zero => rfl
  | succ n ih =>
    simp only [State.bytesFrom]
    rw [h i (Nat.le_refl i) (by omega), ih fun k h1 h2 => h k (by omega) (by omega)]

/-- One byte more at the end. -/
theorem State.bytesFrom_succ (s : State) (i n : Nat) : s.bytesFrom i (n + 1) = s.bytesFrom i n ++ [s.byteAt (i + n)] := by
  induction n generalizing i with
  | zero => simp [State.bytesFrom]
  | succ n ih =>
    rw [State.bytesFrom, ih, State.bytesFrom, List.cons_append]
    congr 4; omega

theorem State.drop_bytesFrom (s : State) (i n k : Nat) : (s.bytesFrom i n).drop k = s.bytesFrom (i + k) (n - k) := by
  induction k generalizing i n with
  | zero => simp
  | succ k ih =>
    cases n with
    | zero => simp [State.bytesFrom]
    | succ n => simp only [State.bytesFrom, List.drop_succ_cons, ih]; congr 1 <;> omega

theorem State.take_bytesFrom (s : State) {i n k : Nat} (h : k ≤ n) : (s.bytesFrom i n).take k = s.bytesFrom i k := by
  induction k generalizing i n with
  | zero => simp [State.bytesFrom]
  | succ k ih =>
    cases n with
    | zero => omega
    | succ n => simp only [State.bytesFrom, List.take_succ_cons, ih (Nat.le_of_succ_le_succ h)]

/-- Equal runs of bytes are equal byte by byte. -/
theorem State.byteAt_of_bytesFrom_eq {s t : State} {i n k : Nat} (h : s.bytesFrom i n = t.bytesFrom i n) (hk : k < n) :
    s.byteAt (i + k) = t.byteAt (i + k) := by
  have := congrArg (fun l => l[k]?) h
  simpa [State.getElem?_bytesFrom _ hk] using this

@[simp] theorem State.length_validBytes (s : State) : s.validBytes.length = s.cursor := by simp [State.validBytes]

theorem State.validBytes_congr {s t : State} (hb : s.buf = t.buf) (hc : s.cursor = t.cursor) :
    s.validBytes = t.validBytes := by
  rw [State.validBytes, State.validBytes, hc]
  exact State.bytesFrom_congr fun k _ _ => State.byteAt_congr hb k

@[simp] theorem finishFeed_validBytes (r : Res) (s : State) : (finishFeed r s).validBytes = s.validBytes :=
  State.validBytes_congr rfl rfl

@[simp] theorem setState_validBytes (d : DecoderState) (s : State) : (setState d s).validBytes = s.validBytes :=
  State.validBytes_congr rfl rfl

@[simp] theorem reply_validBytes (r : Reply) (s : State) : (reply r s).validBytes = s.validBytes :=
  State.validBytes_congr rfl rfl

/-- No byte is valid at cursor 0. -/
theorem State.validBytes_nil {s : State} (h : s.cursor = 0) : s.validBytes = [] := by rw [State.validBytes, h]; rfl

@[simp] theorem clear_validBytes (s : State) : (clear s).validBytes = [] := State.validBytes_nil (clear_cursor s)

/-! ### MemRead and MemWrite -/

theorem memRead_eq_some {i : Nat} {s : State} (h : i < s.cfg.capacity) : memRead i s = some (s.byteAt i) := by
  simp [memRead, h]

theorem viewByte_of_lt {i : Nat} {s : State} (h : i < s.cfg.capacity) : viewByte s i = s.byteAt i := by
  simp [viewByte, memRead_eq_some h]

/-- Inside the buffer a view reads the buffer's bytes. -/
theorem viewBytes_of_le {i n : Nat} {s : State} (h : i + n ≤ s.cfg.capacity) : viewBytes s i n = s.bytesFrom i n := by
  induction n generalizing i with
  | zero => rfl
  | succ n ih => simp only [viewBytes, State.bytesFrom, viewByte_of_lt (show i < s.cfg.capacity by omega), ih (show i + 1 + n ≤ _ by omega)]

theorem memRead_eq_none {i : Nat} {s : State} (h : ¬ i < s.cfg.capacity) : memRead i s = none := by
  simp [memRead, h]

end Sys2Proof.Machine
end

