-- ==== Sys2Proof/Laws/Feed.lean ====
section
/-! SUPPORT. What Append, a row's body and a FEED can do: one lemma per outcome, and one inversion lemma. -/

namespace Sys2Proof.Machine

/-! ### Append -/

/-- The state after an append that is not refused. -/
def appended (b : Byte) (s : State) : State := setCursor (s.cursor + 1) { s with buf := s.buf.write s.cursor b }

section
variable (b : Byte) (s : State)

@[simp] theorem appended_cfg : (appended b s).cfg = s.cfg := rfl
@[simp] theorem appended_state : (appended b s).state = s.state := rfl
@[simp] theorem appended_buf : (appended b s).buf = s.buf.write s.cursor b := rfl
@[simp] theorem appended_frameValid : (appended b s).frameValid = s.frameValid := rfl
@[simp] theorem appended_resetSeen : (appended b s).resetSeen = s.resetSeen := rfl
@[simp] theorem appended_draws : (appended b s).draws = s.draws := rfl
@[simp] theorem appended_inbox : (appended b s).inbox = s.inbox := rfl

end

theorem appended_cursor_eq (b : Byte) (s : State) : (appended b s).cursor = (s.cursor + 1) % 2 ^ s.cfg.cursorW := rfl

/-- The increment never wraps (20_memory.md R43, R55). -/
theorem appended_cursor {b : Byte} {s : State} (hc : s.cfg.wf = true) (h : s.cursor < s.cfg.capacity) :
    (appended b s).cursor = s.cursor + 1 := Config.wf_mod hc (Nat.succ_le_of_lt h)

theorem appended_validBytes {b : Byte} {s : State} (hc : s.cfg.wf = true) (h : s.cursor < s.cfg.capacity) :
    (appended b s).validBytes = s.validBytes ++ [b] := by
  rw [State.validBytes, appended_cursor hc h, State.bytesFrom_succ, Nat.zero_add,
    State.byteAt_write_same (appended_buf b s)]
  congr 1
  exact State.bytesFrom_congr fun k _ hk => State.byteAt_write_other (appended_buf b s) (by omega)

theorem append_of_lt {b : Byte} {s : State} (h : s.cursor < s.cfg.capacity) : append b s = .ok (appended b s) := by
  simp [append, memWrite, h]; rfl

theorem append_of_full {b : Byte} {s : State} (h : s.cfg.capacity ≤ s.cursor) : append b s = .overflow := by
  simp [append, memWrite, Nat.not_lt_of_le h]

/-! ### Rows -/

/-- The state and response of a row that appends. -/
def rowTarget : Row → Option (DecoderState × Res)
  | .idlePre => some (.attn, .listening)
  | .attnPre => some (.start, .listening)
  | .startStx => some (.addr, .listening)
  | .addrAcc => some (.type, .listening)
  | .typeAcc => some (.data, .listening)
  | .dataEtx => some (.idle, .complete)
  | .dataDle => some (.escape, .listening)
  | .dataAcc => some (.data, .listening)
  | .escLit => some (.data, .listening)
  | .idleIgn => none
  | .attnAbort => none
  | .startAbort => none
  | .rsvd => none

/-- The state a row's append starts from: IDLE.PRE clears first. -/
def rowBase : Row → State → State
  | .idlePre, s => clear s
  | _, s => s

@[simp] theorem rowBase_cfg (r : Row) (s : State) : (rowBase r s).cfg = s.cfg := by cases r <;> rfl
@[simp] theorem rowBase_buf (r : Row) (s : State) : (rowBase r s).buf = s.buf := by cases r <;> rfl
@[simp] theorem rowBase_resetSeen (r : Row) (s : State) : (rowBase r s).resetSeen = s.resetSeen := by cases r <;> rfl
@[simp] theorem rowBase_draws (r : Row) (s : State) : (rowBase r s).draws = s.draws := by cases r <;> rfl
@[simp] theorem rowBase_inbox (r : Row) (s : State) : (rowBase r s).inbox = s.inbox := by cases r <;> rfl

theorem rowBase_of_ne {r : Row} (h : r ≠ .idlePre) (s : State) : rowBase r s = s := by cases r <;> first | rfl | contradiction

theorem rowBase_cursor_le (r : Row) (s : State) : (rowBase r s).cursor ≤ s.cursor := by
  cases r <;> simp [rowBase]

theorem rowBody_target {r : Row} {d : DecoderState} {res : Res} (h : rowTarget r = some (d, res)) (b : Byte) (s : State) :
    rowBody r b s = appendThen b d res (rowBase r s) := by
  cases r <;> simp only [rowTarget, Option.some.injEq, Prod.mk.injEq, reduceCtorEq] at h <;>
    obtain ⟨rfl, rfl⟩ := h <;> rfl

/-- The rows that drop the byte and go to Idle. -/
def rowAborts : Row → Bool
  | .attnAbort => true
  | .startAbort => true
  | .rsvd => true
  | _ => false

theorem rowBody_aborts {r : Row} (h : rowAborts r = true) (b : Byte) (s : State) :
    rowBody r b s = .done (setState .idle (clear s)) .listening := by
  cases r <;> first | rfl | cases h

theorem row_cases (r : Row) : r = .idleIgn ∨ rowAborts r = true ∨ ∃ d res, rowTarget r = some (d, res) := by
  cases r <;> simp [rowAborts, rowTarget]

/-! ### The frame of FEED -/

section
variable {r : Row} {b : Byte} {s t : State}

theorem performRow_unreset (h : s.resetSeen = false) : performRow r b s = .refused .feedBeforeReset := by
  simp [performRow, h]

theorem performRow_ign (hs : s.resetSeen = true) : performRow .idleIgn b s = .next (finishFeed .listening s) := by
  simp [performRow, hs, rowBody, bodyIdleIgn]

theorem performRow_abort (hs : s.resetSeen = true) (h : rowAborts r = true) :
    performRow r b s = .next (finishFeed .listening (setState .idle (clear s))) := by
  simp [performRow, hs, rowBody_aborts h]

theorem performRow_accept {d : DecoderState} {res : Res} (hs : s.resetSeen = true) (h : rowTarget r = some (d, res))
    (hc : (rowBase r s).cursor < s.cfg.capacity) :
    performRow r b s = .next (finishFeed res (setState d (appended b (rowBase r s)))) := by
  simp [performRow, hs, rowBody_target h, appendThen, append_of_lt (b := b) (s := rowBase r s) (by simpa using hc)]

theorem performRow_full {d : DecoderState} {res : Res} (hs : s.resetSeen = true) (h : rowTarget r = some (d, res))
    (hc : s.cfg.capacity ≤ (rowBase r s).cursor) :
    performRow r b s = .next (finishFeed .overflow (takeOverflow s)) := by
  simp [performRow, hs, rowBody_target h, appendThen, append_of_full (b := b) (s := rowBase r s) (by simpa using hc)]

/-- Everything a performed row can do. -/
theorem performRow_next (h : performRow r b s = .next t) : s.resetSeen = true ∧
    ((r = .idleIgn ∧ t = finishFeed .listening s) ∨
     (rowAborts r = true ∧ t = finishFeed .listening (setState .idle (clear s))) ∨
     (∃ d res, rowTarget r = some (d, res) ∧ (rowBase r s).cursor < s.cfg.capacity ∧
       t = finishFeed res (setState d (appended b (rowBase r s)))) ∨
     (∃ d res, rowTarget r = some (d, res) ∧ s.cfg.capacity ≤ (rowBase r s).cursor ∧
       t = finishFeed .overflow (takeOverflow s))) := by
  cases hs : s.resetSeen with
  | false => rw [performRow_unreset hs] at h; cases h
  | true =>
    refine ⟨rfl, ?_⟩
    rcases row_cases r with rfl | ha | ⟨d, res, ht⟩
    · rw [performRow_ign hs] at h; cases h; exact .inl ⟨rfl, rfl⟩
    · rw [performRow_abort hs ha] at h; cases h; exact .inr (.inl ⟨ha, rfl⟩)
    · rcases Nat.lt_or_ge (rowBase r s).cursor s.cfg.capacity with hc | hc
      · rw [performRow_accept hs ht hc] at h; cases h; exact .inr (.inr (.inl ⟨d, res, ht, hc, rfl⟩))
      · rw [performRow_full hs ht hc] at h; cases h; exact .inr (.inr (.inr ⟨d, res, ht, hc, rfl⟩))

/-- A row is performed to its end in every state after a RESET. -/
theorem performRow_completes (r : Row) (b : Byte) (hs : s.resetSeen = true) : ∃ t, performRow r b s = .next t := by
  rcases row_cases r with rfl | ha | ⟨d, res, ht⟩
  · exact ⟨_, performRow_ign hs⟩
  · exact ⟨_, performRow_abort hs ha⟩
  · rcases Nat.lt_or_ge (rowBase r s).cursor s.cfg.capacity with hc | hc
    · exact ⟨_, performRow_accept hs ht hc⟩
    · exact ⟨_, performRow_full hs ht hc⟩

theorem runRow_selected (h : selectedRow s b = r) : runRow r b s = performRow r b s := by simp [runRow, h]

theorem runRow_unselected (h : selectedRow s b ≠ r) : runRow r b s = .refused .rowNotSelected := by simp [runRow, h]

/-- A row instruction that answers a next state was selected, and answers what FEED answers. -/
theorem runRow_next (h : runRow r b s = .next t) : selectedRow s b = r ∧ performRow r b s = .next t := by
  unfold runRow at h
  split at h
  · exact ⟨‹_›, h⟩
  · cases h

/-- A row's own instruction, in a state that selects it, performs the row with the selected byte. -/
theorem exec_instr (h : selectedRow s b = r) : exec (r.instr b) s = performRow r b s := by
  have hb := byte_of_class s.cfg b
  have key : ∀ b', b' = b → runRow r b' s = performRow r b s := by rintro _ rfl; exact runRow_selected h
  rw [selectedRow_eq] at h
  cases hs : s.state <;> cases hk : classOf s.cfg b <;> rw [hs, hk] at h <;> subst h <;>
    simp only [hk, true_implies, reduceCtorEq, false_implies] at hb <;>
    first
    | exact key _ rfl
    | exact key _ hb.1
    | exact key _ hb.2.1
    | exact key _ hb.2.2.1
    | exact key _ hb.2.2.2

theorem exec_feed : exec (.feed b) s = performRow (selectedRow s b) b s := rfl

end

/-- A row instruction and its word: it runs the row that its word decodes to, with its word's byte. -/
theorem exec_of_encode {s : State} {i : Instr} {w : TransitionWord} (hc : s.cfg.wf = true) (hi : i.wf s.cfg = true)
    (he : encode s.cfg i = .tw w) :
    exec i s = runRow (decodeRow s.cfg w) (twByte w) s ∧ rowOf s i = some (decodeRow s.cfg w) ∧
    (decodeRow s.cfg w).instr (twByte w) = i := by
  have hpre := classOf_pre_iff s.cfg
  have hstx := classOf_stx_iff hc
  have hetx := classOf_etx_iff hc
  have hdle := classOf_dle_iff hc
  have key : ∀ (st : DecoderState) (b : Byte) (r : Row), w = makeTW st.code b → rowFor st (classOf s.cfg b) = r →
      exec i s = runRow r b s → rowOf s i = some r → r.instr b = i →
      exec i s = runRow (decodeRow s.cfg w) (twByte w) s ∧ rowOf s i = some (decodeRow s.cfg w) ∧
      (decodeRow s.cfg w).instr (twByte w) = i := by
    rintro st b r rfl rfl h1 h2 h3
    rw [decodeRow_code, twByte_makeTW]
    exact ⟨h1, h2, h3⟩
  cases i <;> simp only [encode, TableWord.tw.injEq, reduceCtorEq] at he
  case feedIdlePre => exact key .idle s.cfg.preamble .idlePre he.symm (by rw [(hpre _).2 rfl]; rfl) rfl rfl rfl
  case feedAttnPre => exact key .attn s.cfg.preamble .attnPre he.symm (by rw [(hpre _).2 rfl]; rfl) rfl rfl rfl
  case feedStartStx => exact key .start s.cfg.start .startStx he.symm (by rw [(hstx _).2 rfl]; rfl) rfl rfl rfl
  case feedDataEtx => exact key .data s.cfg.stop .dataEtx he.symm (by rw [(hetx _).2 rfl]; rfl) rfl rfl rfl
  case feedDataDle => exact key .data s.cfg.escape .dataDle he.symm (by rw [(hdle _).2 rfl]; rfl) rfl rfl rfl
  case feedAddrAcc b => exact key .addr b .addrAcc he.symm (by cases classOf s.cfg b <;> rfl) rfl rfl rfl
  case feedTypeAcc b => exact key .type b .typeAcc he.symm (by cases classOf s.cfg b <;> rfl) rfl rfl rfl
  case feedEscLit b => exact key .escape b .escLit he.symm (by cases classOf s.cfg b <;> rfl) rfl rfl rfl
  case feedRsvd b =>
    subst he
    rw [decodeRow_reserved s.cfg (twState_makeTW 7 b), twByte_makeTW]
    exact ⟨rfl, rfl, rfl⟩
  case feedIdleIgn b =>
    have h := (hpre b).not.2 (by simpa [Instr.wf] using hi)
    exact key .idle b .idleIgn he.symm (by cases hk : classOf s.cfg b <;> first | rfl | contradiction) rfl rfl rfl
  case feedAttnAbort b =>
    have h := (hpre b).not.2 (by simpa [Instr.wf] using hi)
    exact key .attn b .attnAbort he.symm (by cases hk : classOf s.cfg b <;> first | rfl | contradiction) rfl rfl rfl
  case feedStartAbort b =>
    have h := (hstx b).not.2 (by simpa [Instr.wf] using hi)
    exact key .start b .startAbort he.symm (by cases hk : classOf s.cfg b <;> first | rfl | contradiction) rfl rfl rfl
  case feedDataAcc b =>
    have hb : b ≠ s.cfg.stop ∧ b ≠ s.cfg.escape := by simpa [Instr.wf] using hi
    have h := (hetx b).not.2 hb.1
    have h' := (hdle b).not.2 hb.2
    exact key .data b .dataAcc he.symm (by cases hk : classOf s.cfg b <;> first | rfl | contradiction) rfl rfl rfl

/-- An instruction that performs a row and answers a next state does what a FEED of its byte does. -/
theorem exec_row_next {i : Instr} {r : Row} {s t : State} (hr : rowOf s i = some r) (h : exec i s = .next t) :
    selectedRow s (rowByte s i) = r ∧ exec (.feed (rowByte s i)) s = .next t := by
  cases i <;> simp only [rowOf, Option.some.injEq, reduceCtorEq] at hr <;> subst hr <;>
    first
    | exact ⟨rfl, h⟩
    | (obtain ⟨h1, h2⟩ := runRow_next h
       refine ⟨h1, ?_⟩
       simp only [exec_feed, rowByte]
       rw [h1]; exact h2)

/-! ### A FEED by the kind of its row, as whole states -/

section
variable {s : State} {b : Byte} {r : Row} {i : Instr} {d : DecoderState} {res : Res}

theorem decodeTW_selected (s : State) (b : Byte) :
    decodeTW s.cfg (transitionWord s b) = (selectedRow s b).instr b := by
  simp [decodeTW, selectedRow]

/-- The selected row's own instruction does what FEED does. -/
theorem exec_selected (hr : selectedRow s b = r) (hi : r.instr b = i) : exec i s = exec (.feed b) s := by
  rw [← hi, exec_instr hr, exec_feed, hr]

theorem feed_accepts (hr : selectedRow s b = r) (ht : rowTarget r = some (d, res)) (hne : r ≠ .idlePre)
    (hc : s.cfg.wf = true) (hs : s.resetSeen = true) (hcur : s.cursor < s.cfg.capacity) :
    exec (.feed b) s = .next (s.afterFeed d (s.cursor + 1) (s.buf.write s.cursor b) res) := by
  rw [exec_feed, hr, performRow_accept hs ht (by rwa [rowBase_of_ne hne]), rowBase_of_ne hne]
  have := appended_cursor (b := b) hc hcur
  rw [appended_cursor_eq] at this
  simp [finishFeed, setState, appended, setCursor, State.afterFeed, this]

theorem feed_startsFrame (hr : selectedRow s b = .idlePre) (hc : s.cfg.wf = true) (hs : s.resetSeen = true) :
    exec (.feed b) s = .next (s.afterFeed .attn 1 (s.buf.write 0 b) .listening) := by
  have h6 := Config.wf_capacity hc
  rw [exec_feed, hr, performRow_accept (d := .attn) (res := .listening) hs rfl (by simp [rowBase]; omega)]
  have := appended_cursor (b := b) (s := clear s) (by simpa) (by simp; omega)
  rw [appended_cursor_eq] at this
  simp at this
  simp [finishFeed, setState, appended, setCursor, State.afterFeed, rowBase, clear, this]

theorem feed_overflows (hr : selectedRow s b = r) (ht : rowTarget r = some (d, res)) (hne : r ≠ .idlePre)
    (hs : s.resetSeen = true) (hcur : s.cfg.capacity ≤ s.cursor) :
    exec (.feed b) s = .next s.afterOverflow := by
  rw [exec_feed, hr, performRow_full hs ht (by rwa [rowBase_of_ne hne])]
  cases hp : s.cfg.ovfPolicy
  · simp [takeOverflow, hp, finishFeed, State.afterOverflow, State.afterFeed]
  · simp [takeOverflow, hp, finishFeed, State.afterOverflow, State.afterFeed, setState, clear, setCursor]

theorem feed_aborts (hr : selectedRow s b = r) (ht : rowAborts r = true) (hs : s.resetSeen = true) :
    exec (.feed b) s = .next (s.afterFeed .idle 0 s.buf .listening) := by
  rw [exec_feed, hr, performRow_abort hs ht]
  simp [finishFeed, State.afterFeed, setState, clear, setCursor]

theorem feed_ignores (hr : selectedRow s b = .idleIgn) (hs : s.resetSeen = true) :
    exec (.feed b) s = .next (s.afterFeed s.state s.cursor s.buf .listening) := by
  rw [exec_feed, hr, performRow_ign hs]; rfl

/-- In Data and Escape every row appends, and none clears. -/
theorem rowTarget_inFrame (hst : s.state = .data ∨ s.state = .escape) :
    ∃ d res, rowTarget (selectedRow s b) = some (d, res) ∧ selectedRow s b ≠ .idlePre ∧
      (d = .idle → s.state = .data ∧ selectedRow s b = .dataEtx ∧ b = s.cfg.stop ∧ res = .complete) ∧
      (d = .idle ∨ d = .data ∨ d = .escape) := by
  have hb := byte_of_class s.cfg b
  rcases hst with h | h <;> rw [selectedRow_eq, h] <;> cases hk : classOf s.cfg b <;>
    simp only [hk, true_implies, reduceCtorEq, false_implies] at hb <;> simp [rowFor, rowTarget]
  exact hb.2.2.1.symm

end

/-- Storing rows are those that append (20_memory.md R43). -/
theorem rowStoreIndex_target {r : Row} {d : DecoderState} {res : Res} (h : rowTarget r = some (d, res)) (s : State) :
    rowStoreIndex s r = if (rowBase r s).cursor < s.cfg.capacity then some (rowBase r s).cursor else none := by
  cases r <;> simp only [rowTarget, reduceCtorEq] at h <;> rfl

theorem rowStoreIndex_none {r : Row} (h : rowTarget r = none) (s : State) : rowStoreIndex s r = none := by
  cases r <;> simp only [rowTarget, reduceCtorEq] at h <;> rfl

end Sys2Proof.Machine
end

