-- ==== Sys2Proof/Laws/PerInstr.lean ====
section
/-! SUPPORT. Families of statements with one lemma per instruction. DecodeSound: a word that decodes to an instruction is
that instruction's own word, and the instruction is well-formed, so each transaction and each row has one word per operand
(30_encoding.md R62, R66). -/

namespace Sys2Proof

/-- A transition word is the word of the row instruction it decodes to. -/
theorem encode_decodeTW {c : Config} (hc : c.wf = true) (w : TransitionWord) :
    encode c (decodeTW c w) = .tw w ∧ (decodeTW c w).wf c = true := by
  have hpre := classOf_pre_iff c (twByte w)
  have hstx := classOf_stx_iff hc (twByte w)
  have hetx := classOf_etx_iff hc (twByte w)
  have hdle := classOf_dle_iff hc (twByte w)
  rcases Machine.DecoderState.code_cases (twState w) with ⟨d, hst⟩ | h7
  · have hw : makeTW d.code (twByte w) = w := by rw [hst, makeTW_fields]
    have hrow : decodeTW c w = (rowFor d (classOf c (twByte w))).instr (twByte w) := by
      rw [decodeTW, ← decodeRow_code, hw]
    rw [hrow]
    cases d <;> cases hk : classOf c (twByte w) <;> simp only [hk, reduceCtorEq, true_iff, false_iff] at hpre hstx hetx hdle <;>
      simp_all [rowFor, Row.instr, Instr.wf, encode, Machine.DecoderState.code]
  · rw [decodeTW, decodeRow_reserved c h7]
    refine ⟨?_, rfl⟩
    rw [Row.instr, encode, ← h7, makeTW_fields]

/-- A command word is the word of the transaction it decodes to. -/
theorem encode_decodeCW (c : Config) {w : CommandWord} {i : Instr} (h : decodeCW w = .ok i) :
    encode c i = .cw w ∧ i.wf c = true := by
  have hw := makeCW_fields w
  have hop : ∀ n : Nat, (cwOp w).toNat = n → cwOp w = BitVec.ofNat 3 n := by
    rintro _ rfl; simp
  have hno : ∀ {j : Instr} {op : BitVec 3}, cwOp w = op → noOperand w j = .ok i → i = j ∧ w = makeCW op 0 := by
    intro j op ho hn
    unfold noOperand at hn
    split at hn
    · cases hn; exact ⟨rfl, by rw [← hw, ho, ‹cwArg w = 0›]⟩
    · cases hn
  unfold decodeCW at h
  split at h
  case h_1 hn => obtain ⟨rfl, rfl⟩ := hno (hop _ hn) h; exact ⟨rfl, rfl⟩
  case h_2 hn =>
    split at h
    · cases h
      refine ⟨?_, rfl⟩
      rw [encode, show (1 : BitVec 3) = cwOp w from (hop _ hn).symm]
      exact congrArg TableWord.cw ((congrArg (makeCW (cwOp w)) (cwArg_of_bit8 ‹_›)).trans hw)
    · cases h
  case h_3 hn => obtain ⟨rfl, rfl⟩ := hno (hop _ hn) h; exact ⟨rfl, rfl⟩
  case h_4 hn =>
    cases h
    exact ⟨by rw [encode, show (3 : BitVec 3) = cwOp w from (hop _ hn).symm, hw], rfl⟩
  case h_5 hn => obtain ⟨rfl, rfl⟩ := hno (hop _ hn) h; exact ⟨rfl, rfl⟩
  case h_6 hn => obtain ⟨rfl, rfl⟩ := hno (hop _ hn) h; exact ⟨rfl, rfl⟩
  case h_7 hn => obtain ⟨rfl, rfl⟩ := hno (hop _ hn) h; exact ⟨rfl, rfl⟩
  case h_8 h0 h1 h2 h3 h4 h5 h6 =>
    cases h
    have hlt := (cwOp w).isLt
    have h7 : (cwOp w).toNat = 7 := by
      have n0 : (cwOp w).toNat ≠ 0 := h0
      have n1 : (cwOp w).toNat ≠ 1 := h1
      have n2 : (cwOp w).toNat ≠ 2 := h2
      have n3 : (cwOp w).toNat ≠ 3 := h3
      have n4 : (cwOp w).toNat ≠ 4 := h4
      have n5 : (cwOp w).toNat ≠ 5 := h5
      have n6 : (cwOp w).toNat ≠ 6 := h6
      omega
    exact ⟨by rw [encode, show (7 : BitVec 3) = cwOp w from (hop _ h7).symm, hw], rfl⟩

theorem encode_decode {c : Config} (hc : c.wf = true) {w : TableWord} {i : Instr} (h : decode c w = .ok i) :
    encode c i = w ∧ i.wf c = true := by
  cases w with
  | tw w => cases h; exact encode_decodeTW hc w
  | cw w => exact encode_decodeCW c h

namespace Laws.DecodeSound

/-- Every word that decodes to `i` is the word of `i`, and `i` is then well-formed. -/
def Statement (i : Instr) : Prop :=
  ∀ (c : Config) (w : TableWord), c.wf = true → decode c w = .ok i → encode c i = w ∧ i.wf c = true

theorem holds (i : Instr) : Statement i := fun _ _ hc h => encode_decode hc h

theorem feedIdlePre : Statement .feedIdlePre := holds _
theorem feedIdleIgn (b : Byte) : Statement (.feedIdleIgn b) := holds _
theorem feedAttnPre : Statement .feedAttnPre := holds _
theorem feedAttnAbort (b : Byte) : Statement (.feedAttnAbort b) := holds _
theorem feedStartStx : Statement .feedStartStx := holds _
theorem feedStartAbort (b : Byte) : Statement (.feedStartAbort b) := holds _
theorem feedAddrAcc (b : Byte) : Statement (.feedAddrAcc b) := holds _
theorem feedTypeAcc (b : Byte) : Statement (.feedTypeAcc b) := holds _
theorem feedDataEtx : Statement .feedDataEtx := holds _
theorem feedDataDle : Statement .feedDataDle := holds _
theorem feedDataAcc (b : Byte) : Statement (.feedDataAcc b) := holds _
theorem feedEscLit (b : Byte) : Statement (.feedEscLit b) := holds _
theorem feedRsvd (b : Byte) : Statement (.feedRsvd b) := holds _
theorem nop : Statement .nop := holds _
theorem feed (b : Byte) : Statement (.feed b) := holds _
theorem reset : Statement .reset := holds _
theorem readRaw (i : Index) : Statement (.readRaw i) := holds _
theorem viewAddr : Statement .viewAddr := holds _
theorem viewType : Statement .viewType := holds _
theorem viewDlen : Statement .viewDlen := holds _
theorem viewData (k : Index) : Statement (.viewData k) := holds _

end Laws.DecodeSound

end Sys2Proof
end

