-- ==== Sys2Proof/Laws/Shape.lean ====
section
/-! SUPPORT. Paired raw data, its collapse, and how the shape of the buffer grows by one byte (10_state.md R31, 41_view.md
R115, R119). -/

namespace Sys2Proof.Machine

/-! ### Paired data -/

section
variable {stop esc : Byte}

theorem paired_cons_pair (y : Byte) (r : List Byte) : paired stop esc (esc :: y :: r) = paired stop esc r := by
  simp [paired]

theorem paired_cons_plain {x : Byte} (h : x ≠ esc) (r : List Byte) :
    paired stop esc (x :: r) = (x != stop && paired stop esc r) := by
  cases r with
  | nil => simp [paired, h]
  | cons y r => simp [paired, h]

/-- Paired data, then paired data. -/
theorem paired_append {l m : List Byte} (hl : paired stop esc l = true) (hm : paired stop esc m = true) :
    paired stop esc (l ++ m) = true := by
  induction l using paired.induct esc with
  | case1 => simpa using hm
  | case2 x =>
    have hx : x ≠ esc ∧ x ≠ stop := by simpa [paired] using hl
    rw [List.singleton_append, paired_cons_plain hx.1]
    simp [hx.2, hm]
  | case3 y r ih =>
    rw [paired_cons_pair] at hl
    rw [List.cons_append, List.cons_append, paired_cons_pair]
    exact ih hl
  | case4 x y r hx ih =>
    rw [paired_cons_plain hx, Bool.and_eq_true] at hl
    rw [List.cons_append, paired_cons_plain hx, hl.1, ih hl.2]
    rfl

theorem paired_singleton {x : Byte} (h1 : x ≠ stop) (h2 : x ≠ esc) : paired stop esc [x] = true := by
  simp [paired, h1, h2]

theorem paired_pair (y : Byte) : paired stop esc [esc, y] = true := by simp [paired]

/-- A collapsed byte of its own. -/
theorem collapse_cons_plain {x past : Byte} (h : x ≠ esc) (r : List Byte) :
    collapse esc past (x :: r) = x :: collapse esc past r := by
  cases r <;> simp [collapse, h]

/-- A collapsed pair. -/
theorem collapse_cons_pair (y past : Byte) (r : List Byte) :
    collapse esc past (esc :: y :: r) = y :: collapse esc past r := by
  simp [collapse]

/-- Paired data collapses without a byte past its end, to at most its length and at least half of it (00_scope.md R7,
41_view.md R116, R119). -/
theorem collapse_of_paired {l : List Byte} (h : paired stop esc l = true) :
    ∃ d, (∀ past, collapse esc past l = d) ∧ d.length ≤ l.length ∧ l.length ≤ 2 * d.length := by
  induction l using paired.induct esc with
  | case1 => exact ⟨[], fun _ => rfl, by simp, by simp⟩
  | case2 x =>
    have hx : x ≠ esc ∧ x ≠ stop := by simpa [paired] using h
    exact ⟨[x], fun _ => by simp [collapse, hx.1], by simp, by simp⟩
  | case3 y r ih =>
    obtain ⟨d, hd, h1, h2⟩ := ih (by rwa [paired_cons_pair] at h)
    exact ⟨y :: d, fun p => by rw [collapse_cons_pair, hd p], by simp; omega, by simp; omega⟩
  | case4 x y r hx ih =>
    rw [paired_cons_plain hx, Bool.and_eq_true] at h
    obtain ⟨d, hd, h1, h2⟩ := ih h.2
    exact ⟨x :: d, fun p => by rw [collapse_cons_plain hx, hd p], by simpa using h1, by simp only [List.length_cons] at *; omega⟩

end

/-! ### Headers and last bytes -/

section
variable {c : Config} {l : List Byte} {x : Byte}

theorem hasHeader_append (hl : 3 ≤ l.length) (m : List Byte) : hasHeader c (l ++ m) = hasHeader c l := by
  rw [hasHeader, hasHeader, List.take_append_of_le_length hl]

/-- A byte list of the shape of state Data, split at its header. -/
theorem pairedThen_iff {last : Byte} : pairedThen c last l = true ↔
    ∃ m, l = m ++ [last] ∧ 5 ≤ m.length ∧ hasHeader c m = true ∧ paired c.stop c.escape (m.drop 5) = true := by
  constructor
  · intro h
    simp only [pairedThen, Bool.and_eq_true, decide_eq_true_eq, beq_iff_eq] at h
    obtain ⟨⟨⟨h6, hh⟩, hlast⟩, hp⟩ := h
    obtain ⟨m, rfl⟩ : ∃ m, l = m ++ [last] := by
      have hne : l ≠ [] := by rintro rfl; simp at h6
      rw [List.getLast?_eq_some_getLast hne, Option.some.injEq] at hlast
      exact ⟨l.dropLast, by rw [← hlast, List.dropLast_append_getLast hne]⟩
    simp only [List.length_append, List.length_singleton] at h6
    refine ⟨m, rfl, by omega, ?_, ?_⟩
    · rwa [hasHeader_append (by omega)] at hh
    · rwa [List.drop_append_of_le_length (by omega), List.dropLast_concat] at hp
  · rintro ⟨m, rfl, h5, hh, hp⟩
    simp only [pairedThen, Bool.and_eq_true, decide_eq_true_eq, beq_iff_eq]
    refine ⟨⟨⟨by simp; omega, ?_⟩, by simp⟩, ?_⟩
    · rwa [hasHeader_append (by omega)]
    · rwa [List.drop_append_of_le_length (by omega), List.dropLast_concat]

/-- The shape of state Data. -/
theorem shapeOk_data_iff : shapeOk c .data l = true ↔
    5 ≤ l.length ∧ hasHeader c l = true ∧ paired c.stop c.escape (l.drop 5) = true := by
  simp [shapeOk, and_assoc]

theorem shapeOk_escape_iff : shapeOk c .escape l = true ↔
    ∃ m, l = m ++ [c.escape] ∧ shapeOk c .data m = true := by
  simp only [shapeOk_data_iff]; exact pairedThen_iff

theorem isFrame_iff : isFrame c l = true ↔ ∃ m, l = m ++ [c.stop] ∧ shapeOk c .data m = true := by
  simp only [shapeOk_data_iff]; exact pairedThen_iff

theorem isFrame_length (h : isFrame c l = true) : 6 ≤ l.length := by
  obtain ⟨m, rfl, hm⟩ := isFrame_iff.1 h
  have := (shapeOk_data_iff.1 hm).1
  simp; omega

/-- One more raw data byte in state Data (40_process.md R91). -/
theorem shapeOk_data_plain (h : shapeOk c .data l = true) (h1 : x ≠ c.stop) (h2 : x ≠ c.escape) :
    shapeOk c .data (l ++ [x]) = true := by
  obtain ⟨h5, hh, hp⟩ := shapeOk_data_iff.1 h
  refine shapeOk_data_iff.2 ⟨by simp; omega, ?_, ?_⟩
  · rwa [hasHeader_append (by omega)]
  · rw [List.drop_append_of_le_length h5]
    exact paired_append hp (paired_singleton h1 h2)

/-- The literal after an ESCAPE (40_process.md R92). -/
theorem shapeOk_data_literal (h : shapeOk c .escape l = true) : shapeOk c .data (l ++ [x]) = true := by
  obtain ⟨m, rfl, hm⟩ := shapeOk_escape_iff.1 h
  obtain ⟨h5, hh, hp⟩ := shapeOk_data_iff.1 hm
  rw [List.append_assoc]
  refine shapeOk_data_iff.2 ⟨by simp; omega, ?_, ?_⟩
  · rwa [hasHeader_append (by omega)]
  · rw [List.drop_append_of_le_length h5]
    exact paired_append hp (paired_pair x)

/-- The type byte (40_process.md R88): the first five bytes. -/
theorem shapeOk_type_next (h : shapeOk c .type l = true) : shapeOk c .data (l ++ [x]) = true := by
  simp only [shapeOk, Bool.and_eq_true, beq_iff_eq] at h
  refine shapeOk_data_iff.2 ⟨by simp [h.1], ?_, ?_⟩
  · rw [hasHeader_append (by omega)]; exact h.2
  · rw [List.drop_of_length_le (by simp [h.1])]; rfl

/-- The address byte (40_process.md R87). -/
theorem shapeOk_addr_next (h : shapeOk c .addr l = true) : shapeOk c .type (l ++ [x]) = true := by
  simp only [shapeOk, beq_iff_eq] at h
  subst h; simp [shapeOk, hasHeader]

end

/-! ### The raw data of a valid frame -/

/-- The raw data region at a cursor of 6 to C (41_view.md R114, 20_memory.md R55). -/
theorem rawRegion_of_frame {s : State} (h6 : 6 ≤ s.cursor) (hle : s.cursor ≤ s.cfg.capacity) :
    rawRegion s = s.bytesFrom 5 (s.cursor - 6) := by
  rw [rawRegion, if_pos (show shortestFrame ≤ s.cursor from h6)]
  exact viewBytes_of_le (by simp only [dataStart, rawLength, shortestFrame]; omega)

/-- The raw data region of a frame lies inside the buffer and collapses (41_view.md R114, R119). -/
theorem logicalData_of_frame {s : State} (hle : s.cursor ≤ s.cfg.capacity) (hf : isFrame s.cfg s.validBytes = true) :
    ∃ d, (∀ past, collapse s.cfg.escape past (s.bytesFrom 5 (s.cursor - 6)) = d) ∧ logicalData s = d ∧
      d.length ≤ s.cursor - 6 ∧ s.cursor - 6 ≤ 2 * d.length := by
  have h6 : 6 ≤ s.cursor := by simpa using isFrame_length hf
  obtain ⟨m, hm, hd⟩ := isFrame_iff.1 hf
  obtain ⟨h5, -, hp⟩ := shapeOk_data_iff.1 hd
  have hlen : m.length = s.cursor - 1 := by
    have := congrArg List.length hm; simp at this; omega
  have hraw : m.drop 5 = s.bytesFrom 5 (s.cursor - 6) := by
    have h1 : m = s.bytesFrom 0 (s.cursor - 1) := by
      rw [← State.take_bytesFrom s (show s.cursor - 1 ≤ s.cursor by omega)]
      rw [State.validBytes] at hm
      rw [hm, ← hlen, List.take_left]
    rw [h1, State.drop_bytesFrom]; congr 1
  rw [hraw] at hp
  obtain ⟨d, hd, h1, h2⟩ := collapse_of_paired hp
  refine ⟨d, hd, ?_, by simpa using h1, by simpa using h2⟩
  rw [logicalData, rawRegion_of_frame h6 hle]; exact hd _

end Sys2Proof.Machine
end

