-- ==== Sys2Proof/Laws/View.lean ====
section
/-! SUPPORT. What the transactions other than FEED do: one lemma per transaction. -/

namespace Sys2Proof.Machine

section
variable {s t : State}

theorem exec_reset (s : State) : exec .reset s =
    .next (reply .nothing { clearFlags (clear (setState .idle s)) with resetSeen := true }) := rfl

theorem exec_nop (s : State) : exec .nop s = .next (reply .nothing (dropResValid s)) := rfl

theorem rawRead_below {i : Index} (h : i.toNat < s.cursor) (hc : i.toNat < s.cfg.capacity) :
    rawRead i s = some (s.byteAt i.toNat) := by
  simp [rawRead, indexOf, h, memRead_eq_some hc]

theorem rawRead_none {i : Index} (h : s.cursor ≤ i.toNat ∨ s.cfg.capacity ≤ i.toNat) : rawRead i s = none := by
  rcases h with h | h
  · exact if_neg (Nat.not_lt_of_le h)
  · rw [rawRead, indexOf, memRead_eq_none (Nat.not_lt_of_le h), ite_self]

theorem exec_readRaw_below {i : Index} (h : i.toNat < s.cursor) (hc : i.toNat < s.cfg.capacity) :
    exec (.readRaw i) s = .next (reply (.byte (s.byteAt i.toNat)) s) := by
  simp [exec, execReadRaw, rawRead_below h hc]

theorem exec_readRaw_draw {i : Index} (h : s.cursor ≤ i.toNat ∨ s.cfg.capacity ≤ i.toNat) :
    exec (.readRaw i) s = .next (reply (.byte (Config.freeByte s.draws)) { s with draws := s.draws + 1 }) := by
  simp [exec, execReadRaw, rawRead_none h, draw]

theorem exec_viewAddr (hf : s.frameValid = true) (hc : s.cfg.wf = true) :
    exec .viewAddr s = .next (reply (.byte (s.byteAt 3)) s) := by
  have := Config.wf_capacity hc
  simp [exec, execViewAddr, requireFrame, hf, addrIndex, viewByte_of_lt (show 3 < s.cfg.capacity by omega)]

theorem exec_viewType (hf : s.frameValid = true) (hc : s.cfg.wf = true) :
    exec .viewType s = .next (reply (.typeKind (s.byteAt 4) (typeKind s.cfg (s.byteAt 4))) s) := by
  have := Config.wf_capacity hc
  simp [exec, execViewType, requireFrame, hf, typeIndex, viewByte_of_lt (show 4 < s.cfg.capacity by omega)]

theorem exec_viewDlen (hf : s.frameValid = true) :
    exec .viewDlen s = .next (reply (.length (logicalData s).length) s) := by
  simp [exec, execViewDlen, requireFrame, hf]

theorem exec_viewData (k : Index) (hf : s.frameValid = true) :
    exec (.viewData k) s = .next (reply (.data (logicalData s)[k.toNat]?) s) := by
  simp [exec, execViewData, requireFrame, hf, indexOf]

/-- What RESET leaves: the registers at their reset values, everything else as it was (42_control.md R130). -/
theorem exec_reset_next (h : exec .reset s = .next t) :
    t = { s with state := .idle, cursor := 0, frameValid := false, resValid := false, resCode := .listening,
                 resetSeen := true, out := .nothing } := by
  rw [exec_reset] at h
  cases h
  simp [reply, clearFlags, clear, setCursor, setState]

/-- A transaction that performs no row and is not RESET changes only the response's valid bit, the draws and the reply
(41_view.md R118, 42_control.md R131). -/
theorem exec_other_next {i : Instr} (hr : rowOf s i = none) (hi : i ≠ .reset) (h : exec i s = .next t) :
    t = { s with resValid := t.resValid, draws := t.draws, out := t.out } ∧
    (i ≠ .nop → t.resValid = s.resValid) ∧ (i = .nop → t.resValid = false) := by
  cases i <;> simp only [rowOf, reduceCtorEq, not_true, ne_eq] at hr hi <;>
    simp only [exec, execNop, execReadRaw, execViewAddr, execViewType, execViewDlen, execViewData, requireFrame] at h <;>
    (try split at h) <;> cases h <;> simp [reply, dropResValid, draw]

end

end Sys2Proof.Machine
end

