-- ==== Sys2Proof/Laws/Run.lean ====
section
/-! SUPPORT. Sequences of FEEDs and of instructions, and how one FEED keeps the shape of the buffer. -/

namespace Sys2Proof.Machine

section
variable {b : Byte} {bs cs : List Byte} {s t u : State}

@[simp] theorem feedAll_nil : feedAll [] s = .next s := rfl

theorem feedAll_cons (h : exec (.feed b) s = .next t) : feedAll (b :: bs) s = feedAll bs t := by
  simp [feedAll, h]

theorem responses_cons (h : exec (.feed b) s = .next t) : responses (b :: bs) s = t.resCode :: responses bs t := by
  simp [responses, h]

theorem feedAll_cons_next (h : feedAll (b :: bs) s = .next u) :
    ∃ t, exec (.feed b) s = .next t ∧ feedAll bs t = .next u := by
  unfold feedAll at h
  split at h
  · exact ⟨_, ‹_›, h⟩
  · cases h
  · cases h

theorem feedAll_append (h : feedAll bs s = .next t) : feedAll (bs ++ cs) s = feedAll cs t := by
  induction bs generalizing s with
  | nil => cases h; rfl
  | cons b bs ih =>
    obtain ⟨u, hu, h'⟩ := feedAll_cons_next h
    rw [List.cons_append, feedAll_cons hu]; exact ih h'

theorem responses_append (h : feedAll bs s = .next t) :
    responses (bs ++ cs) s = responses bs s ++ responses cs t := by
  induction bs generalizing s with
  | nil => cases h; rfl
  | cons b bs ih =>
    obtain ⟨u, hu, h'⟩ := feedAll_cons_next h
    rw [List.cons_append, responses_cons hu, responses_cons hu, ih h', List.cons_append]

end

section
variable {i : Instr} {is : List Instr} {s t u : State}

@[simp] theorem execAll_nil : execAll [] s = .next s := rfl

theorem execAll_cons (h : exec i s = .next t) : execAll (i :: is) s = execAll is t := by
  simp [execAll, h]

/-- Everything a sequence that answers a next state did: its first instruction did, and the rest went on from there. -/
theorem execAll_cons_next (h : execAll (i :: is) s = .next u) :
    ∃ t, exec i s = .next t ∧ execAll is t = .next u := by
  unfold execAll at h
  split at h
  · exact ⟨_, ‹_›, h⟩
  · cases h
  · cases h

/-- A sequence of FEEDs is a sequence of instructions. -/
theorem execAll_feeds (bs : List Byte) (s : State) : execAll (bs.map .feed) s = feedAll bs s := by
  induction bs generalizing s with
  | nil => rfl
  | cons b bs ih => simp only [List.map_cons, execAll, feedAll, ih]

end

/-! ### One FEED -/

/-- A selected row that appends takes a buffer of its state's shape to one of the next state's shape (10_state.md R31). -/
theorem shapeOk_selected {c : Config} {st : DecoderState} {l : List Byte} {b : Byte} {d : DecoderState} {res : Res}
    (hc : c.wf = true) (hs : shapeOk c st l = true) (hr : rowTarget (rowFor st (classOf c b)) = some (d, res)) :
    shapeOk c d ((if rowFor st (classOf c b) = .idlePre then [] else l) ++ [b]) = true ∧
    (res = .complete → d = .idle ∧ st = .data ∧ b = c.stop) := by
  have hpre := classOf_pre_iff c b
  have hstx := classOf_stx_iff hc b
  have hetx := classOf_etx_iff hc b
  have hdle := classOf_dle_iff hc b
  cases st
  case addr =>
    simp only [rowFor, rowTarget, Option.some.injEq, Prod.mk.injEq] at hr
    obtain ⟨rfl, rfl⟩ := hr
    exact ⟨by simpa [rowFor] using shapeOk_addr_next hs, by simp⟩
  case type =>
    simp only [rowFor, rowTarget, Option.some.injEq, Prod.mk.injEq] at hr
    obtain ⟨rfl, rfl⟩ := hr
    exact ⟨by simpa [rowFor] using shapeOk_type_next hs, by simp⟩
  case escape =>
    simp only [rowFor, rowTarget, Option.some.injEq, Prod.mk.injEq] at hr
    obtain ⟨rfl, rfl⟩ := hr
    exact ⟨by simpa [rowFor] using shapeOk_data_literal hs, by simp⟩
  case data =>
    have hplain : ∀ k : ByteClass, classOf c b = k → k ≠ .etx → k ≠ .dle → b ≠ c.stop ∧ b ≠ c.escape := by
      rintro k rfl h1 h2; exact ⟨fun h => h1 (hetx.2 h), fun h => h2 (hdle.2 h)⟩
    cases hk : classOf c b <;> rw [hk] at hr <;> simp only [rowFor, rowTarget, Option.some.injEq, Prod.mk.injEq] at hr <;>
      obtain ⟨rfl, rfl⟩ := hr
    case etx =>
      have hb := hetx.1 hk
      refine ⟨?_, fun _ => ⟨rfl, rfl, hb⟩⟩
      have : isFrame c (l ++ [b]) = true := isFrame_iff.2 ⟨l, by rw [hb], hs⟩
      simp [rowFor, shapeOk, this]
    case dle =>
      have hb := hdle.1 hk
      exact ⟨by simpa [rowFor] using shapeOk_escape_iff.2 ⟨l, by rw [hb], hs⟩, by simp⟩
    all_goals
      obtain ⟨h1, h2⟩ := hplain _ hk (by simp) (by simp)
      exact ⟨by simpa [rowFor] using shapeOk_data_plain hs h1 h2, by simp⟩
  case start =>
    cases hk : classOf c b <;> rw [hk] at hr <;>
      simp only [rowFor, rowTarget, Option.some.injEq, Prod.mk.injEq, reduceCtorEq] at hr
    obtain ⟨rfl, rfl⟩ := hr
    have hl : l = [c.preamble, c.preamble] := by simpa [shapeOk] using hs
    exact ⟨by simp [rowFor, shapeOk, hl, hstx.1 hk], by simp⟩
  case attn =>
    cases hk : classOf c b <;> rw [hk] at hr <;>
      simp only [rowFor, rowTarget, Option.some.injEq, Prod.mk.injEq, reduceCtorEq] at hr
    obtain ⟨rfl, rfl⟩ := hr
    have hl : l = [c.preamble] := by simpa [shapeOk] using hs
    exact ⟨by simp [rowFor, shapeOk, hl, hpre.1 hk], by simp⟩
  case idle =>
    cases hk : classOf c b <;> rw [hk] at hr <;>
      simp only [rowFor, rowTarget, Option.some.injEq, Prod.mk.injEq, reduceCtorEq] at hr
    obtain ⟨rfl, rfl⟩ := hr
    exact ⟨by simp [rowFor, shapeOk, hpre.1 hk], by simp⟩

end Sys2Proof.Machine
end

