-- ==== Sys2Proof/Tests/Slice0.lean ====
section
/-! SUPPORT. The model's own tests: the well-formedness smoke tests, one word per instruction, one step per corner of each
instruction (expected results from 95_test_vectors.md and the examples of 40_process.md to 42_control.md, never from this
model), and for each obligation with hypotheses a state that meets them. -/

namespace Sys2Proof.Tests

open Sys2Proof Sys2Proof.Machine

/-! ### Helpers -/

/-- Cells from index `i` on. -/
def cells : Nat → List Byte → Memory
  | _, [] => []
  | i, b :: bs => (i, b) :: cells (i + 1) bs

/-- A block in state `d` that holds the valid bytes `bs`. -/
def block (d : DecoderState) (bs : List Byte) : State :=
  { State.reset with state := d, cursor := bs.length, buf := cells 0 bs }

/-- A block with a completed frame. -/
def framed (bs : List Byte) : State := { block .idle bs with frameValid := true, resCode := .complete }

/-- A block of 8 bytes. -/
def small (p : OvfPolicy) (d : DecoderState) (bs : List Byte) : State :=
  { block d bs with cfg := { Config.default with capacity := 8, cursorW := 4, ovfPolicy := p } }

/-- The outcome is a next state that passes `p`. -/
def nextIs (o : Host.Outcome State Fault Refusal) (p : State → Bool) : Bool :=
  match o with
  | .next t => p t
  | .fault _ => false
  | .refused _ => false

/-- The outcome is this refusal. -/
def refusedAs (o : Host.Outcome State Fault Refusal) (r : Refusal) : Bool :=
  match o with
  | .refused q => decide (q = r)
  | .next _ => false
  | .fault _ => false

/-- A FEED's response, and the state and cursor it leaves. -/
def leaves (r : Res) (d : DecoderState) (n : Nat) (t : State) : Bool :=
  decide (t.resCode = r) && decide (t.state = d) && decide (t.cursor = n) && t.resValid

/-! ### Well-formedness smoke tests: each check refuses an ill-formed term -/

theorem test_wf_idleIgn : (Instr.feedIdleIgn 0xFF).wf Config.default = false := by decide
theorem test_wf_attnAbort : (Instr.feedAttnAbort 0xFF).wf Config.default = false := by decide
theorem test_wf_startAbort : (Instr.feedStartAbort 0x02).wf Config.default = false := by decide
theorem test_wf_dataAcc_stop : (Instr.feedDataAcc 0x03).wf Config.default = false := by decide
theorem test_wf_dataAcc_escape : (Instr.feedDataAcc 0x10).wf Config.default = false := by decide
theorem test_wf_config_a : { Config.default with start := 0xFF }.wf = false := by decide
theorem test_wf_config_b : { Config.default with capacity := 5 }.wf = false := by decide
theorem test_wf_config_c : { Config.default with capacity := 512 }.wf = false := by decide
theorem test_wf_config_d : { Config.default with typeTable := [(0x50, 1), (0x50, 2)] }.wf = false := by decide
theorem test_wf_config_default : Config.default.wf = true := by decide

/-! ### Decoding: words written out from 30_encoding.md R62, R66 -/

theorem test_dec_idlePre : decodeTableWord 11 0b00011111111 = some .feedIdlePre := by decide
theorem test_dec_idleIgn : decodeTableWord 11 0b00000000010 = some (.feedIdleIgn 0x02) := by decide
theorem test_dec_attnPre : decodeTableWord 11 0b00111111111 = some .feedAttnPre := by decide
theorem test_dec_attnAbort : decodeTableWord 11 0b00101111110 = some (.feedAttnAbort 0x7E) := by decide
theorem test_dec_startStx : decodeTableWord 11 0b01000000010 = some .feedStartStx := by decide
theorem test_dec_startAbort : decodeTableWord 11 0b01011111111 = some (.feedStartAbort 0xFF) := by decide
theorem test_dec_addrAcc : decodeTableWord 11 0b01101000001 = some (.feedAddrAcc 0x41) := by decide
theorem test_dec_typeAcc : decodeTableWord 11 0b10001010000 = some (.feedTypeAcc 0x50) := by decide
theorem test_dec_dataEtx : decodeTableWord 11 0b10100000011 = some .feedDataEtx := by decide
theorem test_dec_dataDle : decodeTableWord 11 0b10100010000 = some .feedDataDle := by decide
theorem test_dec_dataAcc : decodeTableWord 11 0b10111111111 = some (.feedDataAcc 0xFF) := by decide
theorem test_dec_escLit : decodeTableWord 11 0b11000000011 = some (.feedEscLit 0x03) := by decide
theorem test_dec_rsvd : decodeTableWord 11 0b11110101010 = some (.feedRsvd 0xAA) := by decide
theorem test_dec_nop : decodeTableWord 12 0b000000000000 = some .nop := by decide
theorem test_dec_feed : decodeTableWord 12 0b001011111111 = some (.feed 0xFF) := by decide
theorem test_dec_reset : decodeTableWord 12 0b010000000000 = some .reset := by decide
theorem test_dec_readRaw : decodeTableWord 12 0b011100000001 = some (.readRaw 257) := by decide
theorem test_dec_viewAddr : decodeTableWord 12 0b100000000000 = some .viewAddr := by decide
theorem test_dec_viewType : decodeTableWord 12 0b101000000000 = some .viewType := by decide
theorem test_dec_viewDlen : decodeTableWord 12 0b110000000000 = some .viewDlen := by decide
theorem test_dec_viewData : decodeTableWord 12 0b111000000011 = some (.viewData 3) := by decide
/-- V-ENC-2, V-ENC-3. -/
theorem test_dec_reserved : decodeTableWord 12 0x3FF = none ∧ decodeTableWord 12 0x401 = none := by decide
/-- A transition word placed in whole bytes where no command word has its number. -/
theorem test_dec_bytes : decodeTableWord 16 0x1FF = some .feedAttnPre ∧ decodeTableWord 16 0x503 = some .feedDataEtx ∧
    decodeTableWord 16 0xE03 = some (.viewData 3) := by decide

/-! ### The placed word runs as the very next step -/

theorem test_step_transition_word : nextIs (step (State.reset.withFetchWord 11 0x503)) (leaves .complete .idle 1) = true := by
  decide
theorem test_step_command_word : nextIs (step (State.reset.withFetchWord 12 0x2FF)) (leaves .listening .attn 1) = true := by
  decide
/-- V-VIEW-16. -/
theorem test_step_view_at_reset : refusedAs (step (State.reset.withFetchWord 12 0x800)) .viewWithoutFrame = true := by decide
/-- An empty queue is an idle cycle (42_control.md R131). -/
theorem test_step_idle : nextIs (step { State.reset with resValid := true }) (fun t => !t.resValid) = true := by decide

/-! ### One step of each instruction (95_test_vectors.md section 2) -/

/-- V-IDLE-2. -/
theorem test_idlePre : nextIs (exec .feedIdlePre (framed [0xFF, 0xFF, 0x02, 0x41, 0x50, 0x03]))
    (fun t => leaves .listening .attn 1 t && !t.frameValid) = true := by decide
/-- V-IDLE-7. -/
theorem test_idleIgn : nextIs (exec (.feedIdleIgn 0x00) (framed [0xFF, 0xFF, 0x02, 0x41, 0x50, 0x03]))
    (fun t => leaves .listening .idle 6 t && !t.frameValid) = true := by decide
/-- V-ATTN-1. -/
theorem test_attnPre : nextIs (exec .feedAttnPre (block .attn [0xFF]))
    (fun t => leaves .listening .start 2 t && decide (t.byteAt 1 = 0xFF)) = true := by decide
/-- V-ATTN-2. -/
theorem test_attnAbort : nextIs (exec (.feedAttnAbort 0x02) (block .attn [0xFF])) (leaves .listening .idle 0) = true := by
  decide
/-- V-START-1. -/
theorem test_startStx : nextIs (exec .feedStartStx (block .start [0xFF, 0xFF]))
    (fun t => leaves .listening .addr 3 t && decide (t.byteAt 2 = 0x02)) = true := by decide
/-- V-START-2: a third PREAMBLE goes to Idle. -/
theorem test_startAbort : nextIs (exec (.feedStartAbort 0xFF) (block .start [0xFF, 0xFF]))
    (leaves .listening .idle 0) = true := by decide
/-- V-ADDR-4: not an escape. -/
theorem test_addrAcc : nextIs (exec (.feedAddrAcc 0x10) (block .addr [0xFF, 0xFF, 0x02]))
    (fun t => leaves .listening .type 4 t && decide (t.byteAt 3 = 0x10)) = true := by decide
/-- V-TYPE-2: a STOP does not end the frame. -/
theorem test_typeAcc : nextIs (exec (.feedTypeAcc 0x03) (block .type [0xFF, 0xFF, 0x02, 0x41]))
    (fun t => leaves .listening .data 5 t && decide (t.byteAt 4 = 0x03)) = true := by decide
/-- V-DATA-1. -/
theorem test_dataEtx : nextIs (exec .feedDataEtx (block .data [0xFF, 0xFF, 0x02, 0x41, 0x50]))
    (fun t => leaves .complete .idle 6 t && t.frameValid && decide (t.byteAt 5 = 0x03)) = true := by decide
/-- A STOP at `cursor = C` under HOLD (60_exceptions.md R141, as V-OVF-2). -/
theorem test_dataEtx_full : nextIs (exec .feedDataEtx (small .hold .data [0xFF, 0xFF, 0x02, 0x41, 0x54, 0, 0, 0]))
    (fun t => leaves .overflow .data 8 t && !t.frameValid) = true := by decide
/-- V-DATA-2. -/
theorem test_dataDle : nextIs (exec .feedDataDle (block .data [0xFF, 0xFF, 0x02, 0x41, 0x50]))
    (fun t => leaves .listening .escape 6 t && decide (t.byteAt 5 = 0x10)) = true := by decide
/-- V-DATA-4: an unescaped START is data. -/
theorem test_dataAcc : nextIs (exec (.feedDataAcc 0x02) (block .data [0xFF, 0xFF, 0x02, 0x41, 0x50]))
    (fun t => leaves .listening .data 6 t && decide (t.byteAt 5 = 0x02)) = true := by decide
/-- TO_IDLE (60_exceptions.md R141, as V-OVF-6). -/
theorem test_dataAcc_full : nextIs (exec (.feedDataAcc 0x00) (small .toIdle .data [0xFF, 0xFF, 0x02, 0x41, 0x54, 0, 0, 0]))
    (leaves .overflow .idle 0) = true := by decide
/-- V-ESC-1: an escaped STOP is not the end. -/
theorem test_escLit : nextIs (exec (.feedEscLit 0x03) (block .escape [0xFF, 0xFF, 0x02, 0x41, 0x50, 0x10]))
    (fun t => leaves .listening .data 7 t && decide (t.byteAt 6 = 0x03)) = true := by decide
/-- The literal after an ESCAPE in the last slot (as V-OVF-8). -/
theorem test_escLit_full : nextIs (exec (.feedEscLit 0x03) (small .hold .escape [0xFF, 0xFF, 0x02, 0x41, 0x54, 0, 0, 0x10]))
    (leaves .overflow .escape 8) = true := by decide
/-- V-RSVD: the row's body on a block in Data; no state of the model selects the row (30_encoding.md R68). -/
theorem test_rsvd : nextIs (performRow .rsvd 0xAA (block .data [0xFF, 0xFF, 0x02, 0x41, 0x50])) (leaves .listening .idle 0) = true := by
  decide
theorem test_rsvd_refused : refusedAs (exec (.feedRsvd 0xAA) State.reset) .rowNotSelected = true := by decide
/-- V-TW-2: FEED selects DATA.ACC for 0xFF. -/
theorem test_feed : nextIs (exec (.feed 0xFF) (block .data [0xFF, 0xFF, 0x02, 0x41, 0x50])) (leaves .listening .data 6) = true := by
  decide
/-- 70_reset_and_hazards.md R161. -/
theorem test_feed_unreset : refusedAs (exec (.feed 0xFF) { State.reset with resetSeen := false }) .feedBeforeReset = true := by
  decide
/-- A row that 30_encoding.md R62 does not select. -/
theorem test_row_unselected : refusedAs (exec .feedDataEtx State.reset) .rowNotSelected = true := by decide
/-- V-CTL-2. -/
theorem test_reset : nextIs (exec .reset (framed [0xFF, 0xFF, 0x02, 0x41, 0x50, 0x03]))
    (fun t => decide (t.state = .idle) && decide (t.cursor = 0) && !t.frameValid && !t.resValid &&
      decide (t.byteAt 3 = 0x41)) = true := by decide
/-- V-VIEW-17. -/
theorem test_nop : nextIs (exec .nop { framed [0xFF, 0xFF, 0x02, 0x41, 0x50, 0x03] with resValid := true })
    (fun t => t.frameValid && !t.resValid && decide (t.cursor = 6)) = true := by decide
/-- V-VIEW-5. -/
theorem test_readRaw : nextIs (exec (.readRaw 5) (framed [0xFF, 0xFF, 0x02, 0x41, 0x50, 0x03]))
    (fun t => decide (t.out = .byte 0x03) && decide (t.draws = 0)) = true := by decide
/-- V-VIEW-7: a draw. -/
theorem test_readRaw_stale : nextIs (exec (.readRaw 300) (framed [0xFF, 0xFF, 0x02, 0x41, 0x50, 0x03]))
    (fun t => decide (t.draws = 1) && decide (t.cursor = 6)) = true := by decide
/-- V-VIEW-1. -/
theorem test_viewAddr : nextIs (exec .viewAddr (framed [0xFF, 0xFF, 0x02, 0x41, 0x50, 0x03]))
    (fun t => decide (t.out = .byte 0x41)) = true := by decide
/-- V-VIEW-14. -/
theorem test_viewAddr_refused : refusedAs (exec .viewAddr (block .idle [0xFF, 0xFF, 0x02, 0x41, 0x50, 0x03]))
    .viewWithoutFrame = true := by decide
/-- V-VIEW-2. -/
theorem test_viewType : nextIs (exec .viewType (framed [0xFF, 0xFF, 0x02, 0x41, 0x50, 0x03]))
    (fun t => decide (t.out = .typeKind 0x50 .poll)) = true := by decide
/-- V-VIEW-11. -/
theorem test_viewType_unknown : nextIs (exec .viewType (framed [0xFF, 0xFF, 0x02, 0x03, 0x03, 0x03]))
    (fun t => decide (t.out = .typeKind 0x03 .unknown)) = true := by decide
/-- The example of 41_view.md R116. -/
theorem test_viewDlen : nextIs (exec .viewDlen (framed [0xFF, 0xFF, 0x02, 0x41, 0x54, 0x10, 0x03, 0x07, 0x03]))
    (fun t => decide (t.out = .length 2)) = true := by decide
/-- The examples of 41_view.md R117. -/
theorem test_viewData : nextIs (exec (.viewData 0) (framed [0xFF, 0xFF, 0x02, 0x41, 0x54, 0x10, 0x03, 0x07, 0x03]))
    (fun t => decide (t.out = .data (some 0x03))) = true := by decide
theorem test_viewData_end : nextIs (exec (.viewData 2) (framed [0xFF, 0xFF, 0x02, 0x41, 0x54, 0x10, 0x03, 0x07, 0x03]))
    (fun t => decide (t.out = .data none)) = true := by decide

/-! ### Collapse, the wire encoding, ports and stimulus text -/

/-- The collapse vectors of 95_test_vectors.md section 3, whatever stands past the region. -/
theorem test_collapse : collapse 0x10 0xEE [] = [] ∧ collapse 0x10 0xEE [0x10, 0x10, 0x10, 0x10] = [0x10, 0x10] ∧
    collapse 0x10 0xEE [0x10, 0xFF, 0x07] = [0xFF, 0x07] ∧
    collapse 0x10 0xEE [0x01, 0x10, 0x03, 0x02] = [0x01, 0x03, 0x02] := by decide
/-- W9. -/
theorem test_frameBytes : frameBytes Config.default 0x41 0x54 [0x03, 0x10, 0xFF, 0x07] =
    [0xFF, 0xFF, 0x02, 0x41, 0x54, 0x10, 0x03, 0x10, 0x10, 0x10, 0xFF, 0x07, 0x03] := by decide
/-- V-CTL-4. -/
theorem test_port_reset_wins :
    nextIs (clockEdge { rst := true, inValid := true, inByte := 0xFF, rawIdx := 0, viewK := 0 } State.reset)
      (fun t => decide (t.state = .idle) && decide (t.cursor = 0) && !t.resValid) = true := by decide
/-- The kind port of a POLL frame (30_encoding.md R69). -/
theorem test_port_kind : viewKindOut 0 (framed [0xFF, 0xFF, 0x02, 0x41, 0x50, 0x03]) = 2 := by decide
/-- 30_encoding.md R73, and the run form of R72. -/
theorem test_parse_frame : parseLine "frame 41, 50, []  ; a poll".toList = some (some (.frame 0x41 0x50 [])) := by decide
theorem test_parse_run : parseLine "feed 00 *253".toList = some (some (.feedRun 0x00 253)) := by decide
/-- The command words of P1's first bytes. -/
theorem test_stim_words : (Stim.feed [0xFF, 0x02]).words Config.default = [0x2FF, 0x202] := by decide

/-! ### Witnesses: for each obligation with hypotheses, a state and operands that meet them all, per clause -/

theorem witness_ReservedCommandWordsRefused : decodeCW 0x3FF = .error .feedArgBit8 ∧ decodeCW 0x001 = .error (.argNotZero 0) ∧
    decodeCW 0x401 = .error (.argNotZero 2) ∧ decodeCW 0xDFF = .error (.argNotZero 6) ∧
    State.reset.cfg.wf = true ∧ { State.reset with inbox := [0x3FF] }.inbox = 0x3FF :: [] :=
  ⟨rfl, rfl, rfl, rfl, rfl, rfl⟩

theorem witness_EncodeDecodeRoundTrip : Config.default.wf = true ∧ (Instr.feedDataAcc 0xFF).wf Config.default = true ∧
    (Instr.viewData 511).wf Config.default = true := by decide

theorem witness_ByteClassConditions : Config.default.wf = true ∧ (State.reset.cfg).wf = true := by decide

theorem witness_TransitionRowConditions : (small .toIdle .idle []).cfg.wf = true := by decide

theorem witness_StepRunsDecodedInstruction : State.reset.cfg.wf = true ∧ State.reset.inbox = [] ∧
    { State.reset with inbox := [0x2FF, 0x401] }.inbox = 0x2FF :: [0x401] ∧ decodeCW 0x2FF = .ok (.feed 0xFF) :=
  ⟨rfl, rfl, rfl, rfl⟩

theorem witness_StepRunsPlacedInstruction : State.reset.cfg.wf = true ∧ (Instr.feedIdleIgn 0x02).wf State.reset.cfg = true ∧
    encode State.reset.cfg (.feedIdleIgn 0x02) = .tw 0x002 ∧ DecoderState.idle.code = twState 0x002 ∧
    encode State.reset.cfg (.feedRsvd 0xAA) = .tw 0x7AA ∧ twState 0x7AA = 7 ∧
    encode State.reset.cfg (.readRaw 511) = .cw 0x7FF := by decide

theorem witness_IllFormedConfigurationRefused :
    { State.reset with cfg := { Config.default with capacity := 5 } }.cfg.wf = false := by decide

theorem witness_FeedPerformsTheSelectedRow : { State.reset with cursor := 511 }.resetSeen = true := by decide

theorem witness_RowRunsOnlyInItsState : State.reset.cfg.wf = true ∧ (Instr.feedIdleIgn 0x02).wf State.reset.cfg = true ∧
    encode State.reset.cfg (.feedIdleIgn 0x02) = .tw 0x002 ∧ twState 0x002 = State.reset.state.code ∧
    State.reset.resetSeen = true ∧
    encode State.reset.cfg .feedDataEtx = .tw 0x503 ∧ twState 0x503 ≠ State.reset.state.code := by decide

theorem witness_IdlePreStartsAFrame : State.reset.cfg.wf = true ∧ State.reset.resetSeen = true ∧
    State.reset.state = .idle := by decide

theorem witness_IdleIgnKeepsTheBuffer : (framed [0xFF, 0xFF, 0x02, 0x41, 0x50, 0x03]).cfg.wf = true ∧
    (framed [0xFF, 0xFF, 0x02, 0x41, 0x50, 0x03]).resetSeen = true ∧
    (framed [0xFF, 0xFF, 0x02, 0x41, 0x50, 0x03]).state = .idle ∧
    (0x00 : Byte) ≠ (framed [0xFF, 0xFF, 0x02, 0x41, 0x50, 0x03]).cfg.preamble := by decide

theorem witness_AttnPreGoesToStart : BlockInv (block .attn [0xFF]) ∧ (block .attn [0xFF]).resetSeen = true ∧
    (block .attn [0xFF]).state = .attn ∧ (block .attn [0xFF]).cursor < (block .attn [0xFF]).cfg.capacity := by decide

theorem witness_AbortRowsReturnToIdle : BlockInv (block .attn [0xFF]) ∧ (block .attn [0xFF]).state = .attn ∧
    (0x02 : Byte) ≠ (block .attn [0xFF]).cfg.preamble ∧ BlockInv (block .start [0xFF, 0xFF]) ∧
    (block .start [0xFF, 0xFF]).state = .start ∧ (0xFF : Byte) ≠ (block .start [0xFF, 0xFF]).cfg.start ∧
    (block .start [0xFF, 0xFF]).resetSeen = true := by decide

theorem witness_StartStxGoesToAddr : BlockInv (block .start [0xFF, 0xFF]) ∧ (block .start [0xFF, 0xFF]).resetSeen = true ∧
    (block .start [0xFF, 0xFF]).state = .start ∧
    (block .start [0xFF, 0xFF]).cursor < (block .start [0xFF, 0xFF]).cfg.capacity := by decide

theorem witness_AddrAndTypeAcceptEveryByte : BlockInv (block .addr [0xFF, 0xFF, 0x02]) ∧
    (block .addr [0xFF, 0xFF, 0x02]).state = .addr ∧ (block .addr [0xFF, 0xFF, 0x02]).resetSeen = true ∧
    BlockInv (block .type [0xFF, 0xFF, 0x02, 0x41]) ∧ (block .type [0xFF, 0xFF, 0x02, 0x41]).state = .type ∧
    (block .type [0xFF, 0xFF, 0x02, 0x41]).cursor < (block .type [0xFF, 0xFF, 0x02, 0x41]).cfg.capacity := by decide

/-- For the four Data and Escape statements: the last free slot, and the full buffer. -/
theorem witness_DataEtxCompletesOrOverflows : BlockInv (small .hold .data [0xFF, 0xFF, 0x02, 0x41, 0x54, 0, 0]) ∧
    (small .hold .data [0xFF, 0xFF, 0x02, 0x41, 0x54, 0, 0]).state = .data ∧
    (small .hold .data [0xFF, 0xFF, 0x02, 0x41, 0x54, 0, 0]).resetSeen = true ∧
    (small .hold .data [0xFF, 0xFF, 0x02, 0x41, 0x54, 0, 0]).cursor + 1 =
      (small .hold .data [0xFF, 0xFF, 0x02, 0x41, 0x54, 0, 0]).cfg.capacity ∧
    BlockInv (small .hold .data [0xFF, 0xFF, 0x02, 0x41, 0x54, 0, 0, 0]) ∧
    (small .hold .data [0xFF, 0xFF, 0x02, 0x41, 0x54, 0, 0, 0]).cursor =
      (small .hold .data [0xFF, 0xFF, 0x02, 0x41, 0x54, 0, 0, 0]).cfg.capacity := by decide

theorem witness_DataDleEntersEscape : BlockInv (small .toIdle .data [0xFF, 0xFF, 0x02, 0x41, 0x54]) ∧
    (small .toIdle .data [0xFF, 0xFF, 0x02, 0x41, 0x54]).state = .data ∧
    (small .toIdle .data [0xFF, 0xFF, 0x02, 0x41, 0x54]).resetSeen = true ∧
    (small .toIdle .data [0xFF, 0xFF, 0x02, 0x41, 0x54]).cursor <
      (small .toIdle .data [0xFF, 0xFF, 0x02, 0x41, 0x54]).cfg.capacity ∧
    BlockInv (small .toIdle .data [0xFF, 0xFF, 0x02, 0x41, 0x54, 0, 0, 0]) ∧
    (small .toIdle .data [0xFF, 0xFF, 0x02, 0x41, 0x54, 0, 0, 0]).cursor =
      (small .toIdle .data [0xFF, 0xFF, 0x02, 0x41, 0x54, 0, 0, 0]).cfg.capacity := by decide

theorem witness_DataAccStoresTheByte : BlockInv (block .data [0xFF, 0xFF, 0x02, 0x41, 0x50]) ∧
    (block .data [0xFF, 0xFF, 0x02, 0x41, 0x50]).state = .data ∧
    (block .data [0xFF, 0xFF, 0x02, 0x41, 0x50]).resetSeen = true ∧
    (0x02 : Byte) ≠ (block .data [0xFF, 0xFF, 0x02, 0x41, 0x50]).cfg.stop ∧
    (0x02 : Byte) ≠ (block .data [0xFF, 0xFF, 0x02, 0x41, 0x50]).cfg.escape ∧
    (block .data [0xFF, 0xFF, 0x02, 0x41, 0x50]).cursor < (block .data [0xFF, 0xFF, 0x02, 0x41, 0x50]).cfg.capacity ∧
    (small .hold .data [0xFF, 0xFF, 0x02, 0x41, 0x54, 0, 0, 0]).cursor =
      (small .hold .data [0xFF, 0xFF, 0x02, 0x41, 0x54, 0, 0, 0]).cfg.capacity := by decide

theorem witness_EscLitStoresTheLiteral : BlockInv (block .escape [0xFF, 0xFF, 0x02, 0x41, 0x50, 0x10]) ∧
    (block .escape [0xFF, 0xFF, 0x02, 0x41, 0x50, 0x10]).state = .escape ∧
    (block .escape [0xFF, 0xFF, 0x02, 0x41, 0x50, 0x10]).resetSeen = true ∧
    BlockInv (small .hold .escape [0xFF, 0xFF, 0x02, 0x41, 0x54, 0, 0, 0x10]) ∧
    (small .hold .escape [0xFF, 0xFF, 0x02, 0x41, 0x54, 0, 0, 0x10]).cursor =
      (small .hold .escape [0xFF, 0xFF, 0x02, 0x41, 0x54, 0, 0, 0x10]).cfg.capacity := by decide

theorem witness_RsvdRecoversToIdle : (block .data [0xFF, 0xFF, 0x02, 0x41, 0x50]).resetSeen = true := by decide

theorem witness_OverflowOutcomeFollowsPolicy :
    (small .hold .escape [0xFF, 0xFF, 0x02, 0x41, 0x54, 0, 0, 0x10]).cfg.ovfPolicy = .hold ∧
    (small .hold .escape [0xFF, 0xFF, 0x02, 0x41, 0x54, 0, 0, 0x10]).state = .escape ∧
    (small .hold .escape [0xFF, 0xFF, 0x02, 0x41, 0x54, 0, 0, 0x10]).resetSeen = true ∧
    (small .hold .escape [0xFF, 0xFF, 0x02, 0x41, 0x54, 0, 0, 0x10]).cursor = 8 ∧
    (small .toIdle .data [0xFF, 0xFF, 0x02, 0x41, 0x54, 0, 0, 0]).cfg.ovfPolicy = .toIdle ∧
    (small .toIdle .data [0xFF, 0xFF, 0x02, 0x41, 0x54, 0, 0, 0]).state = .data ∧
    (small .toIdle .data [0xFF, 0xFF, 0x02, 0x41, 0x54, 0, 0, 0]).cfg.capacity = 8 := by decide

theorem witness_OverflowOnlyWhenFullInDataOrEscape : BlockInv (small .hold .data [0xFF, 0xFF, 0x02, 0x41, 0x54, 0, 0, 0]) ∧
    (∃ t, exec (.feed 0x03) (small .hold .data [0xFF, 0xFF, 0x02, 0x41, 0x54, 0, 0, 0]) = .next t ∧ t.resCode = .overflow) ∧
    BlockInv (block .type [0xFF, 0xFF, 0x02, 0x41]) ∧
    (∃ t, exec (.feed 0x03) (block .type [0xFF, 0xFF, 0x02, 0x41]) = .next t) ∧
    (block .type [0xFF, 0xFF, 0x02, 0x41]).state ≠ .data ∧ (block .type [0xFF, 0xFF, 0x02, 0x41]).state ≠ .escape :=
  ⟨by decide, ⟨_, rfl, rfl⟩, by decide, ⟨_, rfl⟩, by decide, by decide⟩

theorem witness_CompleteOnlyByDataEtx : BlockInv (small .hold .data [0xFF, 0xFF, 0x02, 0x41, 0x54, 0, 0]) ∧
    ∃ t, exec (.feed 0x03) (small .hold .data [0xFF, 0xFF, 0x02, 0x41, 0x54, 0, 0]) = .next t ∧ t.resCode = .complete :=
  ⟨by decide, _, rfl, rfl⟩

theorem witness_HoldAnswersOverflowUntilReset :
    BlockInv (small .hold .escape [0xFF, 0xFF, 0x02, 0x41, 0x54, 0, 0, 0x10]) ∧
    (small .hold .escape [0xFF, 0xFF, 0x02, 0x41, 0x54, 0, 0, 0x10]).resetSeen = true ∧
    (small .hold .escape [0xFF, 0xFF, 0x02, 0x41, 0x54, 0, 0, 0x10]).cfg.ovfPolicy = .hold ∧
    (small .hold .escape [0xFF, 0xFF, 0x02, 0x41, 0x54, 0, 0, 0x10]).state = .escape ∧
    (small .hold .escape [0xFF, 0xFF, 0x02, 0x41, 0x54, 0, 0, 0x10]).cursor =
      (small .hold .escape [0xFF, 0xFF, 0x02, 0x41, 0x54, 0, 0, 0x10]).cfg.capacity ∧
    .reset ∉ [Instr.feed 0x03, .nop, .readRaw 7, .readRaw 8] := by decide

theorem witness_HoldAnswersOverflowUntilReset_run : ∃ t, execAll [.feed 0x03, .nop, .readRaw 7, .readRaw 8]
    (small .hold .escape [0xFF, 0xFF, 0x02, 0x41, 0x54, 0, 0, 0x10]) = .next t := ⟨_, rfl⟩

theorem witness_OnlyStopOverflowOrResetLeavesAFrame : (block .data [0xFF, 0xFF, 0x02, 0x41, 0x50]).cfg.wf = true ∧
    (block .data [0xFF, 0xFF, 0x02, 0x41, 0x50]).state = .data ∧
    (∃ t, exec (.feed 0x03) (block .data [0xFF, 0xFF, 0x02, 0x41, 0x50]) = .next t ∧ t.state = .idle) ∧
    (∃ t, exec (.feed 0xFF) (block .data [0xFF, 0xFF, 0x02, 0x41, 0x50]) = .next t ∧ t.state = .data) ∧
    (∃ t, exec (.feed 0x00) (small .toIdle .data [0xFF, 0xFF, 0x02, 0x41, 0x54, 0, 0, 0]) = .next t ∧ t.state = .idle) ∧
    (∃ t, exec .reset (block .data [0xFF, 0xFF, 0x02, 0x41, 0x50]) = .next t) :=
  ⟨by decide, by decide, ⟨_, rfl, rfl⟩, ⟨_, rfl, rfl⟩, ⟨_, rfl, rfl⟩, ⟨_, rfl⟩⟩

theorem witness_PreambleRunsCountModuloThree : (framed [0xFF, 0xFF, 0x02, 0x41, 0x50, 0x03]).cfg.wf = true ∧
    (framed [0xFF, 0xFF, 0x02, 0x41, 0x50, 0x03]).resetSeen = true ∧
    (framed [0xFF, 0xFF, 0x02, 0x41, 0x50, 0x03]).state = .idle ∧ 1 ≤ 1 ∧ 1 % 3 = 1 ∧ 2 % 3 = 2 ∧ 3 % 3 = 0 := by decide

/-- Two states that differ in a stale byte only. -/
theorem witness_FeedIsAFunctionOfVisibleState :
    SameVisible (block .attn [0xFF]) { block .attn [0xFF] with buf := [(0, 0xFF), (1, 0x77)], draws := 5 } ∧
    (∃ t, feedAll [0xFF, 0x02] (block .attn [0xFF]) = .next t) := ⟨by decide, _, rfl⟩

/-- A sequence without `PREAMBLE PREAMBLE START` meets both premises; `FF FF FF 02` meets the first only. -/
theorem witness_NoStartSequenceNoFrame : State.reset.cfg.wf = true ∧ State.reset.resetSeen = true ∧
    State.reset.state = .idle ∧ State.reset.cursor = 0 ∧
    ¬ [State.reset.cfg.preamble, State.reset.cfg.preamble, State.reset.cfg.start] <:+: [0xFF, 0x00, 0x03] := by decide

theorem witness_NoStartSequenceNoFrame_premise : ∀ p q u, [0xFF, 0xFF, 0xFF, 0x02] = p ++ State.reset.cfg.start :: q →
    feedAll p State.reset = .next u → u.state ≠ .start := by
  intro p q u h hu
  rcases p with _ | ⟨a, _ | ⟨b, _ | ⟨c, _ | ⟨d, p⟩⟩⟩⟩
  · simp [State.reset, State.resetWith, Config.default] at h
  · simp [State.reset, State.resetWith, Config.default] at h
  · simp [State.reset, State.resetWith, Config.default] at h
  · simp only [List.cons_append, List.cons.injEq, List.nil_append] at h
    obtain ⟨rfl, rfl, rfl, -, -⟩ := h
    have : feedAll [0xFF, 0xFF, 0xFF] State.reset = .next u := hu
    cases this; decide
  · simp at h

theorem witness_NopKeepsTheView : (framed [0xFF, 0xFF, 0x02, 0x41, 0x50, 0x03]).cfg.wf = true ∧
    (framed [0xFF, 0xFF, 0x02, 0x41, 0x50, 0x03]).frameValid = true := by decide

/-- A power-up state: in Escape, a cursor above C, stray flags. -/
theorem witness_ResetFromAnyStateIsFresh :
    { State.reset with state := .escape, cursor := 511, frameValid := true, resetSeen := false, buf := [(3, 0x41)] }.cfg.wf = true ∧
    Memory.wf [(3, 0x41)] = true ∧ Memory.below 258 [(3, 0x41)] = true := by decide

theorem witness_FeedNeedsAReset : { State.reset with resetSeen := false }.resetSeen = false := by decide

theorem witness_ReadRawBelowTheCursorOrADraw : (5 : Index).toNat < (framed [0xFF, 0xFF, 0x02, 0x41, 0x50, 0x03]).cursor ∧
    (5 : Index).toNat < (framed [0xFF, 0xFF, 0x02, 0x41, 0x50, 0x03]).cfg.capacity ∧
    (framed [0xFF, 0xFF, 0x02, 0x41, 0x50, 0x03]).cursor ≤ (6 : Index).toNat ∧
    State.reset.cfg.capacity ≤ (258 : Index).toNat := by decide

theorem witness_ViewAddrReadsIndexThree : (framed [0xFF, 0xFF, 0x02, 0x41, 0x50, 0x03]).cfg.wf = true ∧
    (framed [0xFF, 0xFF, 0x02, 0x41, 0x50, 0x03]).frameValid = true := by decide

theorem witness_ViewTypeReadsIndexFourAndItsKind : (framed [0xFF, 0xFF, 0x02, 0x41, 0x50, 0x03]).cfg.wf = true ∧
    (framed [0xFF, 0xFF, 0x02, 0x41, 0x50, 0x03]).frameValid = true ∧
    ((framed [0xFF, 0xFF, 0x02, 0x41, 0x50, 0x03]).byteAt 4, (1 : Fin 7)) ∈ Config.default.typeTable ∧
    (∀ n, ((framed [0xFF, 0xFF, 0x02, 0x41, 0x03, 0x03]).byteAt 4, n) ∉ Config.default.typeTable) := by decide

theorem witness_ViewDataIsTheCollapsedRegion :
    BlockInv (framed [0xFF, 0xFF, 0x02, 0x41, 0x54, 0x10, 0x03, 0x07, 0x03]) ∧
    (framed [0xFF, 0xFF, 0x02, 0x41, 0x54, 0x10, 0x03, 0x07, 0x03]).frameValid = true := by decide

theorem witness_ViewsRefusedWithoutAFrame : State.reset.frameValid = false := by decide

theorem witness_ReadsWriteNoState : ∃ t, exec (.viewData 1) (framed [0xFF, 0xFF, 0x02, 0x41, 0x54, 0x10, 0x03, 0x07, 0x03]) = .next t :=
  ⟨_, rfl⟩

theorem witness_ViewEndsAtTheNextFeed : BlockInv (framed [0xFF, 0xFF, 0x02, 0x41, 0x50, 0x03]) ∧
    (framed [0xFF, 0xFF, 0x02, 0x41, 0x50, 0x03]).frameValid = true ∧
    (∃ t, exec (.feed 0x00) (framed [0xFF, 0xFF, 0x02, 0x41, 0x50, 0x03]) = .next t) ∧
    (∃ t, exec (.feed 0xFF) (framed [0xFF, 0xFF, 0x02, 0x41, 0x50, 0x03]) = .next t) :=
  ⟨by decide, by decide, ⟨_, rfl⟩, ⟨_, rfl⟩⟩

theorem witness_CollapseUndoesEscaping : (small .hold .idle []).cfg.wf = true := by decide

/-- A frame of exactly C bytes. -/
theorem witness_EscapeRoundTrip : (small .hold .idle []).cfg.wf = true ∧ (small .hold .idle []).resetSeen = true ∧
    (small .hold .idle []).state = .idle ∧
    (frameBytes (small .hold .idle []).cfg 0x41 0x54 [0x03]).length = (small .hold .idle []).cfg.capacity := by decide

/-- For the statements over all instructions: a row, RESET and a read answer a next state. -/
theorem witness_FrameValidFollowsFeedAndReset :
    (∃ t, exec .feedDataEtx (block .data [0xFF, 0xFF, 0x02, 0x41, 0x50]) = .next t) ∧
    (rowOf (block .data [0xFF, 0xFF, 0x02, 0x41, 0x50]) .feedDataEtx).isSome = true ∧
    (∃ t, exec .reset State.reset = .next t) ∧
    (∃ t, exec .viewAddr (framed [0xFF, 0xFF, 0x02, 0x41, 0x50, 0x03]) = .next t) ∧
    (rowOf (framed [0xFF, 0xFF, 0x02, 0x41, 0x50, 0x03]) .viewAddr).isSome = false :=
  ⟨⟨_, rfl⟩, by decide, ⟨_, rfl⟩, ⟨_, rfl⟩, by decide⟩

theorem witness_OnlyTheAppendedByteChanges :
    (∃ t, exec (.feed 0x03) (small .hold .data [0xFF, 0xFF, 0x02, 0x41, 0x54, 0, 0]) = .next t) ∧
    storeIndex (.feed 0x03) (small .hold .data [0xFF, 0xFF, 0x02, 0x41, 0x54, 0, 0]) = some 7 ∧
    (∃ t, exec (.feed 0x03) (small .hold .data [0xFF, 0xFF, 0x02, 0x41, 0x54, 0, 0, 0]) = .next t) ∧
    storeIndex (.feed 0x03) (small .hold .data [0xFF, 0xFF, 0x02, 0x41, 0x54, 0, 0, 0]) = none ∧
    storeIndex .feedIdlePre (framed [0xFF, 0xFF, 0x02, 0x41, 0x50, 0x03]) = some 0 :=
  ⟨⟨_, rfl⟩, by decide, ⟨_, rfl⟩, by decide, by decide⟩

theorem witness_OnlyFeedAndResetWriteTheBlock : (∃ t, exec .nop State.reset = .next t) ∧
    (rowOf State.reset .nop).isSome = false ∧ (∃ t, exec .reset State.reset = .next t) :=
  ⟨⟨_, rfl⟩, by decide, ⟨_, rfl⟩⟩

/-- Each of the four cases is met. -/
theorem witness_ExecAnswersOrRefusesByName : (∃ t, exec (.viewData 0) { State.reset with cursor := 511, frameValid := true } = .next t) ∧
    exec .viewAddr State.reset = .refused .viewWithoutFrame ∧ exec .feedDataEtx State.reset = .refused .rowNotSelected ∧
    exec (.feed 0xFF) { State.reset with resetSeen := false } = .refused .feedBeforeReset :=
  ⟨⟨_, rfl⟩, rfl, rfl, rfl⟩

theorem witness_AppendChecksCapacityFirst : (small .hold .data [0xFF, 0xFF, 0x02, 0x41, 0x54, 0, 0, 0]).cfg.wf = true ∧
    8 ≤ (small .hold .data [0xFF, 0xFF, 0x02, 0x41, 0x54, 0, 0, 0]).cursor ∧
    (small .hold .data [0xFF, 0xFF, 0x02, 0x41, 0x54, 0, 0]).cursor < 8 := by decide

theorem witness_WriteIsReadBackAndChangesNoOtherByte : 257 < State.reset.cfg.capacity ∧ State.reset.cfg.capacity ≤ 258 ∧
    (0 : Nat) ≠ 257 ∧ Memory.wf State.reset.buf = true := by decide

theorem witness_StepKeepsInv : BlockInv { State.reset with inbox := [0x2FF] } ∧
    ∃ t, step { State.reset with inbox := [0x2FF] } = .next t ∧ t.cursor = 1 := ⟨by decide, _, rfl, rfl⟩

theorem witness_ReachableStatesHaveTheirShape : Reachable State.reset ∧ State.reset.state = .idle ∧
    ∃ t, Reachable t ∧ t.state = .attn :=
  ⟨.reset _ (by decide), rfl, _, .transaction (.feed 0xFF) _ _ (.reset Config.default (by decide)) rfl, rfl⟩

/-- P1: the six bytes of a frame reach a valid frame, through Attn, Start, Addr, Type and Data. -/
theorem witness_ValidFrameIsARawFrame : ∃ t, Reachable t ∧ t.frameValid = true :=
  ⟨_, .transaction (.feed 0x03) _ _ (.transaction (.feed 0x50) _ _ (.transaction (.feed 0x41) _ _
    (.transaction (.feed 0x02) _ _ (.transaction (.feed 0xFF) _ _ (.transaction (.feed 0xFF) _ _
      (.reset Config.default (by decide)) rfl) rfl) rfl) rfl) rfl) rfl, rfl⟩

/-- The Escape row of the table of reachable states. -/
theorem witness_ReachableEscape : ∃ t, Reachable t ∧ t.state = .escape ∧ t.cursor = 6 :=
  ⟨_, .transaction (.feed 0x10) _ _ (.transaction (.feed 0x50) _ _ (.transaction (.feed 0x41) _ _
    (.transaction (.feed 0x02) _ _ (.transaction (.feed 0xFF) _ _ (.transaction (.feed 0xFF) _ _
      (.reset Config.default (by decide)) rfl) rfl) rfl) rfl) rfl) rfl, rfl, rfl⟩

theorem witness_FrameSizesAreBounded : BlockInv (framed [0xFF, 0xFF, 0x02, 0x41, 0x50, 0x03]) ∧
    (framed [0xFF, 0xFF, 0x02, 0x41, 0x50, 0x03]).frameValid = true := by decide

theorem witness_ResetWinsAtTheEdge : (PortsIn.mk true true 0xFF 0 0).rst = true ∧
    (PortsIn.mk true true 0xFF 0 0).inValid = true := by decide

theorem witness_EdgeFeedsAndAnswersNextCycle : (PortsIn.mk false true 0xFF 0 0).rst = false ∧
    (PortsIn.mk false true 0xFF 0 0).inValid = true ∧ (PortsIn.mk false false 0xFF 0 0).inValid = false ∧
    (∃ t, (portCycle 0 (PortsIn.mk false true 0xFF 0 0) State.reset).2 = .next t) :=
  ⟨rfl, rfl, rfl, _, rfl⟩

theorem witness_PortsShowTheReadTransactions : BlockInv (framed [0xFF, 0xFF, 0x02, 0x41, 0x50, 0x03]) ∧
    (framed [0xFF, 0xFF, 0x02, 0x41, 0x50, 0x03]).frameValid = true ∧
    (PortsIn.mk false false 0 5 0).rawIdx.toNat < (framed [0xFF, 0xFF, 0x02, 0x41, 0x50, 0x03]).cursor ∧
    BlockInv State.reset ∧ State.reset.frameValid = false := by decide

end Sys2Proof.Tests
end

/-! ### Well-formed configurations: each test of `Config.wf` as the condition of 00_scope.md R6 it computes -/

namespace Sys2Proof

/-- 00_scope.md R6 (a). -/
theorem Config.distinct_iff (c : Config) : c.distinct = true ↔
    c.preamble ≠ c.start ∧ c.preamble ≠ c.stop ∧ c.preamble ≠ c.escape ∧ c.start ≠ c.stop ∧ c.start ≠ c.escape ∧
    c.stop ≠ c.escape := by
  simp [Config.distinct, and_assoc]

/-- 00_scope.md R6 (d): comparing all pairs of entries says that the table is a partial map. -/
theorem Config.tableOk_iff (c : Config) : c.tableOk = true ↔
    ∀ b k k', (b, k) ∈ c.typeTable → (b, k') ∈ c.typeTable → k = k' := by
  simp only [Config.tableOk, List.all_eq_true, Bool.or_eq_true, bne_iff_ne, beq_iff_eq]
  constructor
  · intro h b k k' hk hk'
    exact (h (b, k) hk (b, k') hk').resolve_left (not_not_intro rfl)
  · rintro h ⟨b, k⟩ hk ⟨b', k'⟩ hk'
    rcases eq_or_ne b b' with rfl | hb
    · exact .inr (h b k k' hk hk')
    · exact .inl hb

/-- The configuration is tested before the queue is read, so nothing else of the state matters. -/
theorem Machine.step_of_not_wf {s : Machine.State} (h : s.cfg.wf = false) :
    Machine.step s = .refused .illFormedConfig := by
  simp [Machine.step, h]

/-- Settles O10: the four tests of `Config.wf` are the four conditions of R6, and `step` tests `Config.wf` first. -/
theorem illFormedConfigurationRefused : Obligations.IllFormedConfigurationRefused := by
  unfold Obligations.IllFormedConfigurationRefused
  constructor
  · intro c
    rw [Config.wf_iff, Config.distinct_iff, Config.tableOk_iff]
  · intro s h
    exact Machine.step_of_not_wf h

end Sys2Proof

/-! ### The invariant holds in every reachable state (10_state.md R31 to R33) -/

namespace Sys2Proof.Machine

/-- The half of `BlockInv` that speaks of the configuration, the state register, the cursor and the buffer only (10_state.md
R22, R30, R31); the other half ties the flags to it. -/
structure BufferInv (s : State) : Prop where
  cfg_wf     : s.cfg.wf = true
  cursor_le  : s.cursor ≤ s.cfg.capacity
  buf_wf     : Memory.wf s.buf = true
  buf_below  : Memory.below s.cfg.capacity s.buf = true
  shape      : shapeOk s.cfg s.state s.validBytes = true

theorem blockInv_iff {s : State} : BlockInv s ↔ BufferInv s ∧
    (s.frameValid = true → s.state = .idle ∧ 6 ≤ s.cursor) ∧ s.frameValid = decide (s.resCode = .complete) := by
  constructor
  · rintro ⟨hc, hle, hwf, hbelow, hshape, hflags⟩
    exact ⟨⟨hc, hle, hwf, hbelow, hshape⟩, hflags⟩
  · rintro ⟨⟨hc, hle, hwf, hbelow, hshape⟩, hflags⟩
    exact ⟨hc, hle, hwf, hbelow, hshape, hflags⟩

section
variable {s t : State}

theorem BufferInv.congr (h : BufferInv s) (hcfg : t.cfg = s.cfg) (hstate : t.state = s.state)
    (hcursor : t.cursor = s.cursor) (hbuf : t.buf = s.buf) : BufferInv t := by
  obtain ⟨hc, hle, hwf, hbelow, hshape⟩ := h
  have hbytes : t.validBytes = s.validBytes := State.validBytes_congr hbuf hcursor
  constructor
  · rwa [hcfg]
  · rwa [hcfg, hcursor]
  · rwa [hbuf]
  · rwa [hcfg, hbuf]
  · rwa [hcfg, hstate, hbytes]

/-- An Idle block with cursor 0 asks nothing of the stale bytes. -/
theorem BufferInv.toIdle (h : BufferInv s) : BufferInv (setState .idle (clear s)) where
  cfg_wf := h.cfg_wf
  cursor_le := by simp
  buf_wf := h.buf_wf
  buf_below := h.buf_below
  shape := by simp [shapeOk]

theorem BufferInv.takeOverflow (h : BufferInv s) : BufferInv (takeOverflow s) := by
  cases hp : s.cfg.ovfPolicy with
  | hold => rwa [takeOverflow_hold s hp]
  | toIdle => rw [takeOverflow_toIdle s hp]; exact h.toIdle

/-- The byte of an accepting row lands below C, and only the shape has to be shown. -/
theorem BufferInv.accept {r : Row} {d : DecoderState} {b : Byte} (h : BufferInv s)
    (hlt : (rowBase r s).cursor < s.cfg.capacity)
    (hshape : shapeOk s.cfg d ((rowBase r s).validBytes ++ [b]) = true) :
    BufferInv (setState d (appended b (rowBase r s))) := by
  have hc : (rowBase r s).cfg.wf = true := by simpa using h.cfg_wf
  have hlt' : (rowBase r s).cursor < (rowBase r s).cfg.capacity := by simpa using hlt
  constructor
  · exact hc
  · rw [setState_cursor, appended_cursor hc hlt']
    exact hlt'
  · simpa using Memory.wf_write s.buf _ b h.buf_wf
  · simpa using Memory.below_write s.buf b h.buf_below hlt
  · simpa [appended_validBytes hc hlt'] using hshape

/-- 10_state.md R31, the row of Idle. -/
theorem BufferInv.idle_cases (h : BufferInv s) (hs : s.state = .idle) :
    s.cursor = 0 ∨ isFrame s.cfg s.validBytes = true := by
  have hshape := h.shape
  simp only [hs, shapeOk, Bool.or_eq_true, List.isEmpty_iff] at hshape
  exact hshape.imp_left fun hnil => by simpa using congrArg List.length hnil

theorem rowBase_validBytes (r : Row) (s : State) :
    (rowBase r s).validBytes = if r = .idlePre then [] else s.validBytes := by
  split
  · next h => subst h; exact clear_validBytes s
  · next h => rw [rowBase_of_ne h]

/-- At the end of a FEED the flags follow from its response (40_process.md R80): only a COMPLETE needs a frame. -/
theorem blockInv_finishFeed {res : Res} (h : BufferInv s)
    (hframe : res = .complete → s.state = .idle ∧ s.cursor ≠ 0) : BlockInv (finishFeed res s) := by
  refine blockInv_iff.2 ⟨h.congr rfl rfl rfl rfl, fun hv => ?_, rfl⟩
  obtain ⟨hidle, hne⟩ := hframe (by simpa using hv)
  have hf : isFrame s.cfg s.validBytes = true := (h.idle_cases hidle).resolve_left hne
  exact ⟨hidle, by simpa using isFrame_length hf⟩

/-- The row that a FEED selects keeps the invariant. -/
theorem performRow_keeps_blockInv {b : Byte} (hs : BlockInv s)
    (h : performRow (selectedRow s b) b s = .next t) : BlockInv t := by
  obtain ⟨hb, -, -⟩ := blockInv_iff.1 hs
  obtain ⟨-, ⟨-, rfl⟩ | ⟨-, rfl⟩ | ⟨d, res, htarget, hlt, rfl⟩ | ⟨-, -, -, -, rfl⟩⟩ := performRow_next h
  · exact blockInv_finishFeed hb (by simp)
  · exact blockInv_finishFeed hb.toIdle (by simp)
  · rw [selectedRow_eq] at htarget
    obtain ⟨hshape, hcomplete⟩ := shapeOk_selected hb.cfg_wf hb.shape htarget
    rw [← selectedRow_eq, ← rowBase_validBytes] at hshape
    refine blockInv_finishFeed (hb.accept hlt hshape) fun hres => ⟨(hcomplete hres).1, ?_⟩
    rw [setState_cursor, appended_cursor (by simpa using hb.cfg_wf) (by simpa using hlt)]
    exact Nat.succ_ne_zero _
  · exact blockInv_finishFeed hb.takeOverflow (by simp)

theorem exec_reset_keeps_blockInv (hs : BlockInv s) (h : exec .reset s = .next t) : BlockInv t := by
  obtain ⟨hb, -, -⟩ := blockInv_iff.1 hs
  obtain rfl := exec_reset_next h
  exact blockInv_iff.2 ⟨hb.toIdle.congr rfl rfl (clear_cursor s).symm rfl, by simp, rfl⟩

/-- Every instruction keeps the invariant, from every state that meets it (10_state.md R31 to R33). -/
theorem exec_keeps_blockInv {i : Instr} (hs : BlockInv s) (h : exec i s = .next t) : BlockInv t := by
  cases hr : rowOf s i with
  | some r =>
    obtain ⟨-, hfeed⟩ := exec_row_next hr h
    exact performRow_keeps_blockInv hs hfeed
  | none =>
    by_cases hi : i = .reset
    · subst hi
      exact exec_reset_keeps_blockInv hs h
    · obtain ⟨hb, hflags⟩ := blockInv_iff.1 hs
      obtain ⟨ht, -⟩ := exec_other_next hr hi h
      rw [ht]
      exact blockInv_iff.2 ⟨hb.congr rfl rfl rfl rfl, hflags⟩

theorem blockInv_resetWith {c : Config} (hc : c.wf = true) : BlockInv (State.resetWith c) :=
  ⟨hc, Nat.zero_le _, rfl, rfl, rfl, by simp [State.resetWith], rfl⟩

theorem Reachable.blockInv (h : Reachable s) : BlockInv s := by
  induction h with
  | reset c hc => exact blockInv_resetWith hc
  | transaction i s t _ hexec ih => exact exec_keeps_blockInv ih hexec

/-- A frame's last valid byte (10_state.md R32). -/
theorem byteAt_last_of_isFrame (h : isFrame s.cfg s.validBytes = true) : s.byteAt (s.cursor - 1) = s.cfg.stop := by
  obtain ⟨m, hm, -⟩ := isFrame_iff.1 h
  have hlen : s.cursor = m.length + 1 := by simpa using congrArg List.length hm
  have hlast : s.validBytes[m.length]? = some (s.byteAt (0 + m.length)) :=
    State.getElem?_bytesFrom s (by omega)
  rw [hm, List.getElem?_concat_length, Nat.zero_add, Option.some.injEq] at hlast
  rw [hlen, Nat.add_sub_cancel, hlast]

/-- 10_state.md R32 from the invariant alone. -/
theorem frame_of_blockInv (hs : BlockInv s) (hv : s.frameValid = true) :
    s.state = .idle ∧ 6 ≤ s.cursor ∧ s.cursor ≤ s.cfg.capacity ∧ isFrame s.cfg s.validBytes = true := by
  obtain ⟨hb, hframe, -⟩ := blockInv_iff.1 hs
  obtain ⟨hidle, h6⟩ := hframe hv
  exact ⟨hidle, h6, hb.cursor_le, (hb.idle_cases hidle).resolve_left (by omega)⟩

end

end Sys2Proof.Machine

namespace Sys2Proof

/-- Settles O55: every reachable state meets `BlockInv`, and there a valid frame is an Idle buffer that is not empty. -/
theorem validFrameIsARawFrame : Obligations.ValidFrameIsARawFrame := by
  unfold Obligations.ValidFrameIsARawFrame
  intro s hs hv
  obtain ⟨hidle, h6, hle, hf⟩ := Machine.frame_of_blockInv hs.blockInv hv
  exact ⟨hidle, h6, hle, Machine.byteAt_last_of_isFrame hf, hf⟩

end Sys2Proof

/-! ### The two word formats: reserved command words, byte classes, and the rows of a transition word (30_encoding.md R60,
R62, R67) -/

namespace Sys2Proof

/-! #### Reserved command words -/

theorem noOperand_error_iff {w : CommandWord} {i : Instr} {e : ReservedWord} :
    noOperand w i = .error e ↔ cwArg w ≠ 0 ∧ e = .argNotZero (cwOp w) := by
  unfold noOperand
  split
  · next h => simp [h]
  · next h => rw [Except.error.injEq, eq_comm, and_iff_right h]

/-- 30_encoding.md R67 with the name of each refusal: FEED tests one bit of its argument, a transaction without an operand all
nine, and READ_RAW and VIEW_DATA none. -/
theorem decodeCW_error_iff {w : CommandWord} {e : ReservedWord} : decodeCW w = .error e ↔
    (cwOp w = 1 ∧ cwArgBit8 w = 1 ∧ e = .feedArgBit8) ∨
    ((cwOp w = 0 ∨ cwOp w = 2 ∨ cwOp w = 4 ∨ cwOp w = 5 ∨ cwOp w = 6) ∧ cwArg w ≠ 0 ∧ e = .argNotZero (cwOp w)) := by
  have hop : ∀ op : BitVec 3, op = 0 ∨ op = 1 ∨ op = 2 ∨ op = 3 ∨ op = 4 ∨ op = 5 ∨ op = 6 ∨ op = 7 := by decide
  rcases hop (cwOp w) with h | h | h | h | h | h | h | h
  case inr.inl =>
    rcases BitVec.eq_zero_or_eq_one (cwArgBit8 w) with hb | hb <;> simp [decodeCW, h, hb, eq_comm]
  all_goals simp [decodeCW, h, noOperand_error_iff]

theorem Machine.step_of_reserved {s : Machine.State} {w : CommandWord} {ws : List CommandWord} {e : ReservedWord}
    (hc : s.cfg.wf = true) (hq : s.inbox = w :: ws) (he : decodeCW w = .error e) :
    Machine.step s = .refused (.reservedCommandWord e) := by
  simp [Machine.step, Machine.fetch, hc, hq, he]

/-- Settles O3: each of its parts reads off one side of `decodeCW_error_iff`. -/
theorem reservedCommandWordsRefused : Obligations.ReservedCommandWordsRefused := by
  unfold Obligations.ReservedCommandWordsRefused
  intro w
  constructor
  · simp only [decodeCW_error_iff, exists_or, exists_and_left, exists_eq, and_true]
  · intro e he
    refine ⟨?_, fun s ws hc hq => Machine.step_of_reserved hc hq he⟩
    rcases decodeCW_error_iff.1 he with ⟨hop, -, rfl⟩ | ⟨hop, -, rfl⟩
    · rw [if_pos hop]
    · have hne : cwOp w ≠ 1 := by
        intro h1
        simp [h1] at hop
      rw [if_neg hne]

/-! #### Byte classes -/

/-- OTHER is what is left when all four tests fail, in any configuration. -/
theorem classOf_other_iff (c : Config) (b : Byte) : classOf c b = .other ↔
    b ≠ c.preamble ∧ b ≠ c.start ∧ b ≠ c.stop ∧ b ≠ c.escape := by
  unfold classOf; split_ifs <;> simp_all

/-- At the default constants the four that have a class of their own leave 252 bytes. -/
theorem default_other_count :
    ((List.range 256).filter fun n => classOf Config.default (BitVec.ofNat 8 n) == .other).length = 252 := by
  decide +kernel

/-- Settles O5: `classOf` tests the four constants in turn, and a well-formed configuration has them distinct. -/
theorem byteClassConditions : Obligations.ByteClassConditions := by
  unfold Obligations.ByteClassConditions
  refine ⟨fun c b hc => ?_, rfl, rfl, rfl, rfl, default_other_count⟩
  exact ⟨classOf_pre_iff c b, classOf_stx_iff hc b, classOf_etx_iff hc b, classOf_dle_iff hc b, classOf_other_iff c b⟩

/-! #### The rows of a transition word -/

/-- The row of a state register and a byte: the byte conditions of 30_encoding.md R62 in their order. -/
def byteRow (c : Config) (b : Byte) : Machine.DecoderState → Row
  | .idle => if b = c.preamble then .idlePre else .idleIgn
  | .attn => if b = c.preamble then .attnPre else .attnAbort
  | .start => if b = c.start then .startStx else .startAbort
  | .addr => .addrAcc
  | .type => .typeAcc
  | .data => if b = c.stop then .dataEtx else if b = c.escape then .dataDle else .dataAcc
  | .escape => .escLit

theorem decodeRow_eq_byteRow {c : Config} (hc : c.wf = true) (d : Machine.DecoderState) (b : Byte) :
    decodeRow c (makeTW d.code b) = byteRow c b d := by
  rw [decodeRow_code]
  cases d <;>
    simp only [byteRow, ← classOf_pre_iff, ← classOf_stx_iff hc, ← classOf_etx_iff hc, ← classOf_dle_iff hc] <;>
    cases classOf c b <;> rfl

theorem makeTW_inj {s t : BitVec 3} {b b' : Byte} : makeTW s b = makeTW t b' ↔ s = t ∧ b = b' := by
  constructor
  · intro h
    exact ⟨by simpa using congrArg twState h, by simpa using congrArg twByte h⟩
  · rintro ⟨rfl, rfl⟩; rfl

theorem makeTW_and (s t : BitVec 3) (b b' : Byte) : makeTW s b &&& makeTW t b' = makeTW (s &&& t) (b &&& b') :=
  BitVec.and_append

/-- The mask of a row that fixes the byte, 0x7FF, keeps the whole word. -/
theorem makeTW_matches_whole (s t : BitVec 3) (b b' : Byte) :
    (makeTW s b &&& makeTW 7#3 255#8 == makeTW t b') = (decide (s = t) && decide (b = b')) := by
  have hs : s &&& 7#3 = s := BitVec.and_allOnes
  have hb : b &&& 255#8 = b := BitVec.and_allOnes
  rw [makeTW_and, hs, hb, Bool.eq_iff_iff]
  simp [makeTW_inj]

/-- The mask of a row that takes any byte, 0x700, keeps the state code alone. -/
theorem makeTW_matches_state (s t : BitVec 3) (b : Byte) :
    (makeTW s b &&& makeTW 7#3 0#8 == makeTW t 0#8) = decide (s = t) := by
  have hs : s &&& 7#3 = s := BitVec.and_allOnes
  rw [makeTW_and, hs, BitVec.and_zero, Bool.eq_iff_iff]
  simp [makeTW_inj]

/-- The printed table with each word split into its state code and its byte. -/
theorem rowTable_fields : rowTable =
    [(.idlePre, makeTW 0#3 255#8, makeTW 7#3 255#8), (.idleIgn, makeTW 0#3 0#8, makeTW 7#3 0#8),
     (.attnPre, makeTW 1#3 255#8, makeTW 7#3 255#8), (.attnAbort, makeTW 1#3 0#8, makeTW 7#3 0#8),
     (.startStx, makeTW 2#3 2#8, makeTW 7#3 255#8), (.startAbort, makeTW 2#3 0#8, makeTW 7#3 0#8),
     (.addrAcc, makeTW 3#3 0#8, makeTW 7#3 0#8), (.typeAcc, makeTW 4#3 0#8, makeTW 7#3 0#8),
     (.dataEtx, makeTW 5#3 3#8, makeTW 7#3 255#8), (.dataDle, makeTW 5#3 16#8, makeTW 7#3 255#8),
     (.dataAcc, makeTW 5#3 0#8, makeTW 7#3 0#8), (.escLit, makeTW 6#3 0#8, makeTW 7#3 0#8),
     (.rsvd, makeTW 7#3 0#8, makeTW 7#3 0#8)] := by
  decide

theorem tableRow_reserved (b : Byte) : tableRow (makeTW 7 b) = some .rsvd := by
  simp [tableRow, rowTable_fields, makeTW_matches_whole, makeTW_matches_state]

theorem tableRow_code (d : Machine.DecoderState) (b : Byte) :
    tableRow (makeTW d.code b) = some (byteRow Config.default b d) := by
  simp only [tableRow, rowTable_fields, makeTW_matches_whole, makeTW_matches_state, List.find?_cons]
  cases d
  case idle | attn => by_cases h : b = 255#8 <;> simp [byteRow, Machine.DecoderState.code, Config.default, h]
  case start => by_cases h : b = 2#8 <;> simp [byteRow, Machine.DecoderState.code, Config.default, h]
  case data =>
    by_cases hstop : b = 3#8
    · simp [byteRow, Machine.DecoderState.code, Config.default, hstop]
    · by_cases h : b = 16#8 <;> simp [byteRow, Machine.DecoderState.code, Config.default, hstop, h]
  all_goals simp [byteRow, Machine.DecoderState.code]

/-- The printed masks and matches say what the decoder does, for each of the 2^11 words. -/
theorem tableRow_eq_decodeRow (w : TransitionWord) : tableRow w = some (decodeRow Config.default w) := by
  rw [← makeTW_fields w]
  rcases Machine.DecoderState.code_cases (twState w) with ⟨d, hd⟩ | h7
  · rw [← hd, tableRow_code, decodeRow_eq_byteRow Config.default_wf]
  · rw [h7, tableRow_reserved, decodeRow_reserved _ (twState_makeTW 7 _)]

/-- Settles O6: `tableRow` and `decodeRow` both select `byteRow` at a state's code and RSVD at the reserved one, and the rows
of one state are told apart by the tests of `byteRow`. -/
theorem transitionRowConditions : Obligations.TransitionRowConditions := by
  unfold Obligations.TransitionRowConditions
  refine ⟨tableRow_eq_decodeRow, fun c s b hc => ?_⟩
  rcases Machine.DecoderState.code_cases s with ⟨d, rfl⟩ | rfl
  · rw [decodeRow_eq_byteRow hc]
    cases d
    case idle | attn => by_cases h : b = c.preamble <;> simp [byteRow, Machine.DecoderState.code, h]
    case start => by_cases h : b = c.start <;> simp [byteRow, Machine.DecoderState.code, h]
    case data =>
      obtain ⟨-, -, -, -, -, hne⟩ := Config.wf_distinct hc
      rcases eq_or_ne b c.stop with rfl | hstop
      · simp [byteRow, Machine.DecoderState.code, hne]
      · by_cases h : b = c.escape <;> simp [byteRow, Machine.DecoderState.code, hstop, h, hne.symm]
    all_goals simp [byteRow, Machine.DecoderState.code]
  · rw [decodeRow_reserved c (twState_makeTW 7 b)]
    simp

end Sys2Proof

/-! ### What FEED sees of a state: stale bytes have no influence (40_process.md R96) -/

namespace Sys2Proof.Machine

/-- An append leaves the old valid bytes and the new one, as many of them as the cursor register can count: no stale byte
becomes valid, whatever the configuration. -/
theorem appended_validBytes_take (b : Byte) (s : State) :
    (appended b s).validBytes = (s.validBytes ++ [b]).take ((s.cursor + 1) % 2 ^ s.cfg.cursorW) := by
  have hall : (appended b s).bytesFrom 0 (s.cursor + 1) = s.validBytes ++ [b] := by
    rw [State.bytesFrom_succ, Nat.zero_add, State.byteAt_write_same (appended_buf b s)]
    congr 1
    exact State.bytesFrom_congr fun k _ hk => State.byteAt_write_other (appended_buf b s) (by omega)
  rw [← hall, State.take_bytesFrom _ (Nat.mod_le _ _), ← appended_cursor_eq b s, State.validBytes]

section
variable {s t : State}

theorem sameVisible_selectedRow (h : SameVisible s t) (b : Byte) : selectedRow s b = selectedRow t b := by
  obtain ⟨hcfg, hstate, -⟩ := h
  rw [selectedRow_eq, selectedRow_eq, hcfg, hstate]

theorem SameVisible.setState (h : SameVisible s t) (d : DecoderState) : SameVisible (setState d s) (setState d t) := by
  obtain ⟨hcfg, -, hcursor, hvalid, hseen, hbytes⟩ := h
  exact ⟨hcfg, rfl, hcursor, hvalid, hseen, by simpa using hbytes⟩

theorem SameVisible.clear (h : SameVisible s t) : SameVisible (clear s) (clear t) := by
  obtain ⟨hcfg, hstate, -, hvalid, hseen, -⟩ := h
  exact ⟨hcfg, hstate, by simp, hvalid, hseen, by simp⟩

theorem SameVisible.appended (h : SameVisible s t) (b : Byte) : SameVisible (appended b s) (appended b t) := by
  obtain ⟨hcfg, hstate, hcursor, hvalid, hseen, hbytes⟩ := h
  refine ⟨hcfg, hstate, ?_, hvalid, hseen, ?_⟩
  · rw [appended_cursor_eq, appended_cursor_eq, hcursor, hcfg]
  · rw [appended_validBytes_take, appended_validBytes_take, hbytes, hcursor, hcfg]

theorem SameVisible.finishFeed (h : SameVisible s t) (r : Res) : SameVisible (finishFeed r s) (finishFeed r t) := by
  obtain ⟨hcfg, hstate, hcursor, -, hseen, hbytes⟩ := h
  exact ⟨hcfg, hstate, hcursor, rfl, hseen, by simpa using hbytes⟩

theorem SameVisible.takeOverflow (h : SameVisible s t) : SameVisible (takeOverflow s) (takeOverflow t) := by
  have ⟨hcfg, _⟩ := h
  cases hp : s.cfg.ovfPolicy with
  | hold => rwa [takeOverflow_hold s hp, takeOverflow_hold t (hcfg ▸ hp)]
  | toIdle =>
    rw [takeOverflow_toIdle s hp, takeOverflow_toIdle t (hcfg ▸ hp)]
    exact h.clear.setState .idle

theorem SameVisible.rowBase (h : SameVisible s t) (r : Row) : SameVisible (rowBase r s) (rowBase r t) := by
  rcases eq_or_ne r .idlePre with rfl | hne
  · exact h.clear
  · rwa [rowBase_of_ne hne, rowBase_of_ne hne]

/-- A row performed in two states that look alike does the same to both. -/
theorem sameVisible_performRow (h : SameVisible s t) (hs : s.resetSeen = true) (r : Row) (b : Byte) :
    ∃ s' t', performRow r b s = .next s' ∧ performRow r b t = .next t' ∧ s'.resCode = t'.resCode ∧
      SameVisible s' t' := by
  have ⟨hcfg, _, _, _, hseen, _⟩ := h
  have ht : t.resetSeen = true := hseen ▸ hs
  rcases row_cases r with rfl | hr | ⟨d, res, hr⟩
  · exact ⟨_, _, performRow_ign hs, performRow_ign ht, rfl, h.finishFeed _⟩
  · exact ⟨_, _, performRow_abort hs hr, performRow_abort ht hr, rfl, (h.clear.setState _).finishFeed _⟩
  · have ⟨_, _, hcursor, _⟩ := h.rowBase r
    rcases Nat.lt_or_ge (rowBase r s).cursor s.cfg.capacity with hlt | hge
    · have hlt' : (rowBase r t).cursor < t.cfg.capacity := by rwa [← hcursor, ← hcfg]
      exact ⟨_, _, performRow_accept hs hr hlt, performRow_accept ht hr hlt', rfl,
        (((h.rowBase r).appended b).setState d).finishFeed res⟩
    · have hge' : t.cfg.capacity ≤ (rowBase r t).cursor := by rwa [← hcursor, ← hcfg]
      exact ⟨_, _, performRow_full hs hr hge, performRow_full ht hr hge', rfl, h.takeOverflow.finishFeed _⟩

theorem sameVisible_exec_feed (h : SameVisible s t) (hs : s.resetSeen = true) (b : Byte) :
    ∃ s' t', exec (.feed b) s = .next s' ∧ exec (.feed b) t = .next t' ∧ s'.resCode = t'.resCode ∧
      SameVisible s' t' := by
  rw [exec_feed, exec_feed, ← sameVisible_selectedRow h b]
  exact sameVisible_performRow h hs _ b

theorem exec_feed_unreset (hs : s.resetSeen = false) (b : Byte) : exec (.feed b) s = .refused .feedBeforeReset :=
  performRow_unreset hs

end

end Sys2Proof.Machine

namespace Sys2Proof
open Machine

/-- Settles O30: by induction on the fed bytes, each FEED taking states that look alike to states that look alike. -/
theorem feedIsAFunctionOfVisibleState : Obligations.FeedIsAFunctionOfVisibleState := by
  unfold Obligations.FeedIsAFunctionOfVisibleState
  intro bs
  induction bs with
  | nil => exact fun s t h => ⟨rfl, fun s' hs' => ⟨t, rfl, by cases hs'; exact h⟩⟩
  | cons b bs ih =>
    intro s t h
    have ⟨_, _, _, _, hseen, _⟩ := h
    cases hs : s.resetSeen with
    | false =>
      have hfs := exec_feed_unreset hs b
      have hft := exec_feed_unreset (hseen ▸ hs) b
      simp [responses, feedAll, hfs, hft]
    | true =>
      obtain ⟨s', t', hfs, hft, hres, h'⟩ := sameVisible_exec_feed h hs b
      obtain ⟨hresps, hall⟩ := ih s' t' h'
      rw [responses_cons hfs, responses_cons hft, hres, hresps, feedAll_cons hfs, feedAll_cons hft]
      exact ⟨rfl, hall⟩

end Sys2Proof

/-! ### Row RSVD (40_process.md R93) and the answer COMPLETE (R98) -/

namespace Sys2Proof.Machine

section
variable {s t : State} {b : Byte}

/-- The body that 40_process.md R93 keeps for a hardware realisation, in the frame of FEED. -/
theorem performRow_rsvd (hs : s.resetSeen = true) :
    performRow .rsvd b s = .next (s.afterFeed .idle 0 s.buf .listening) := by
  rw [performRow_abort hs rfl]
  simp [finishFeed, State.afterFeed, setState, clear, setCursor]

/-- Of the rows that append, DATA.ETX alone answers COMPLETE. -/
theorem rowTarget_complete_iff {r : Row} {d : DecoderState} {res : Res} (h : rowTarget r = some (d, res)) :
    res = .complete ↔ r = .dataEtx := by
  cases r <;> simp only [rowTarget, Option.some.injEq, Prod.mk.injEq, reduceCtorEq] at h <;>
    obtain ⟨-, rfl⟩ := h <;> simp

/-- 40_process.md R98, first half, from any state: the row is DATA.ETX, and its append succeeds. -/
theorem feed_complete_iff (h : exec (.feed b) s = .next t) :
    t.resCode = .complete ↔ selectedRow s b = .dataEtx ∧ s.cursor < s.cfg.capacity := by
  obtain ⟨-, ⟨hr, rfl⟩ | ⟨hr, rfl⟩ | ⟨d, res, hr, hlt, rfl⟩ | ⟨d, res, -, hge, rfl⟩⟩ := performRow_next h
  · simp [hr]
  · have hne : selectedRow s b ≠ .dataEtx := fun he => by simp [he, rowAborts] at hr
    simp [hne]
  · rw [finishFeed_resCode, rowTarget_complete_iff hr]
    refine ⟨fun he => ⟨he, ?_⟩, And.left⟩
    rwa [rowBase_of_ne (by simp [he])] at hlt
  · simp only [finishFeed_resCode, reduceCtorEq, false_iff, not_and, Nat.not_lt]
    intro he
    rwa [rowBase_of_ne (by simp [he])] at hge

/-- The row names its state and its byte (30_encoding.md R62). -/
theorem selectedRow_eq_byteRow (hc : s.cfg.wf = true) (b : Byte) : selectedRow s b = byteRow s.cfg b s.state :=
  decodeRow_eq_byteRow hc s.state b

theorem byteRow_eq_dataEtx_iff {c : Config} {d : DecoderState} :
    byteRow c b d = .dataEtx ↔ d = .data ∧ b = c.stop := by
  cases d
  case idle | attn => by_cases h : b = c.preamble <;> simp [byteRow, h]
  case start => by_cases h : b = c.start <;> simp [byteRow, h]
  case data => by_cases h : b = c.stop <;> by_cases h' : b = c.escape <;> simp [byteRow, h, h']
  all_goals simp [byteRow]

theorem feed_dataEtx_validBytes (hc : s.cfg.wf = true) (h : exec (.feed b) s = .next t)
    (hr : selectedRow s b = .dataEtx) (hlt : s.cursor < s.cfg.capacity) : t.validBytes = s.validBytes ++ [b] := by
  have hs : s.resetSeen = true := (performRow_next h).1
  rw [exec_feed, hr, performRow_accept (r := .dataEtx) hs rfl hlt] at h
  cases h
  simpa [rowBase] using appended_validBytes (b := b) hc hlt

/-- A raw frame begins with its header and ends in STOP (10_state.md R32). -/
theorem isFrame_ends {c : Config} {l : List Byte} (h : isFrame c l = true) :
    l.take 3 = [c.preamble, c.preamble, c.start] ∧ l.getLast? = some c.stop := by
  simp only [isFrame, pairedThen, hasHeader, Bool.and_eq_true, beq_iff_eq] at h
  obtain ⟨⟨⟨-, hheader⟩, hlast⟩, -⟩ := h
  exact ⟨hheader, hlast⟩

end

end Sys2Proof.Machine

namespace Sys2Proof
open Machine

/-- Settles O23: the seven codes leave 111 to row RSVD alone, so its instruction is never the selected row. -/
theorem rsvdRecoversToIdle : Obligations.RsvdRecoversToIdle := by
  unfold Obligations.RsvdRecoversToIdle
  refine ⟨fun d => ⟨d.code_ne_reserved, by cases d <;> simp⟩, fun s b => ⟨?_, selectedRow_ne_rsvd s b, ?_, ?_⟩⟩
  · rw [decodeTW, decodeRow_reserved _ (twState_makeTW 7 b), twByte_makeTW]; rfl
  · exact runRow_unselected (selectedRow_ne_rsvd s b)
  · exact performRow_rsvd

/-- Settles O26: COMPLETE is DATA.ETX with room, it sets `frame_valid`, and the invariant then says that the valid bytes are
a raw frame. -/
theorem completeOnlyByDataEtx : Obligations.CompleteOnlyByDataEtx := by
  unfold Obligations.CompleteOnlyByDataEtx
  intro s t b hs h
  refine ⟨feed_complete_iff h, fun hres => ?_⟩
  have hc : s.cfg.wf = true := hs.1
  obtain ⟨hr, hlt⟩ := (feed_complete_iff h).1 hres
  obtain ⟨hstate, rfl⟩ := byteRow_eq_dataEtx_iff.1 (selectedRow_eq_byteRow hc b ▸ hr)
  have ht : BlockInv t := exec_keeps_blockInv hs h
  obtain ⟨-, -, hflag⟩ := blockInv_iff.1 ht
  obtain ⟨-, h6, hle, hframe⟩ := frame_of_blockInv ht (by simp [hflag, hres])
  obtain ⟨hheader, hstop⟩ := isFrame_ends hframe
  exact ⟨hstate, rfl, feed_dataEtx_validBytes hc h hr hlt, h6, hle, hheader, hstop⟩

end Sys2Proof

/-! ### Runs of PREAMBLE bytes before a frame starts (40_process.md R94, R97) -/

namespace Sys2Proof.Machine

/-- The state after a run of `n` PREAMBLE bytes, given `n % 3` (the table of 40_process.md R94). -/
def runState : Nat → DecoderState
  | 0 => .idle
  | 1 => .attn
  | _ => .start

/-- The block at configuration `c` stands where a run of `n` PREAMBLE bytes leaves it: outside a frame, with `n % 3` of
them in the buffer. -/
structure AfterRun (c : Config) (n : Nat) (s : State) : Prop where
  cfg_eq    : s.cfg = c
  resetSeen : s.resetSeen = true
  state_eq  : s.state = runState (n % 3)
  bytes     : s.validBytes = List.replicate (n % 3) c.preamble

section
variable {c : Config} {n : Nat} {s t : State} {b : Byte}

theorem runState_mod_cases (n : Nat) : (n % 3 = 0 ∧ runState (n % 3) = .idle) ∨
    (n % 3 = 1 ∧ runState (n % 3) = .attn) ∨ (n % 3 = 2 ∧ runState (n % 3) = .start) := by
  have hlt : n % 3 < 3 := Nat.mod_lt n (by decide)
  interval_cases h : n % 3 <;> simp [runState]

theorem AfterRun.cursor_eq (h : AfterRun c n s) : s.cursor = n % 3 := by
  simpa using congrArg List.length h.bytes

theorem AfterRun.congr {m : Nat} (h : AfterRun c n s) (hm : n % 3 = m % 3) : AfterRun c m s := by
  obtain ⟨hcfg, hseen, hstate, hbytes⟩ := h
  exact ⟨hcfg, hseen, hm ▸ hstate, hm ▸ hbytes⟩

theorem AfterRun.state_eq_start_iff (h : AfterRun c n s) : s.state = .start ↔ n % 3 = 2 := by
  rw [h.state_eq]
  rcases runState_mod_cases n with ⟨h1, h2⟩ | ⟨h1, h2⟩ | ⟨h1, h2⟩ <;> rw [h2] <;> simp [h1]

/-- A FEED of a row that appends, below C: what it leaves and answers. -/
theorem feed_appends {d : DecoderState} {res : Res} (hc : s.cfg.wf = true) (hs : s.resetSeen = true)
    (hr : rowTarget (selectedRow s b) = some (d, res)) (hlt : (rowBase (selectedRow s b) s).cursor < s.cfg.capacity) :
    ∃ t, exec (.feed b) s = .next t ∧ t.resCode = res ∧ t.cfg = s.cfg ∧ t.resetSeen = true ∧ t.state = d ∧
      t.validBytes = (rowBase (selectedRow s b) s).validBytes ++ [b] := by
  refine ⟨_, performRow_accept hs hr hlt, rfl, by simp, by simpa using hs, rfl, ?_⟩
  simpa using appended_validBytes (b := b) (s := rowBase (selectedRow s b) s) (by simpa using hc) (by simpa using hlt)

/-- IDLE.PRE clears, so a run begins anew whatever the cursor (40_process.md R81). -/
theorem feed_preamble_of_idle (hc : s.cfg.wf = true) (hs : s.resetSeen = true) (hidle : s.state = .idle) :
    ∃ t, exec (.feed s.cfg.preamble) s = .next t ∧ t.resCode = .listening ∧ AfterRun s.cfg 1 t := by
  have hr : selectedRow s s.cfg.preamble = .idlePre := by simp [selectedRow_eq_byteRow hc, hidle, byteRow]
  have hcap := Config.wf_capacity hc
  obtain ⟨t, hfeed, hres, hcfg, hseen, hstate, hbytes⟩ :=
    feed_appends (d := .attn) (res := .listening) hc hs (by rw [hr]; rfl) (by simp [hr, rowBase]; omega)
  refine ⟨t, hfeed, hres, hcfg, hseen, hstate, ?_⟩
  simpa [hr, rowBase] using hbytes

theorem afterRun_zero_of_aborts (hs : s.resetSeen = true) (hr : rowAborts (selectedRow s b) = true) :
    ∃ t, exec (.feed b) s = .next t ∧ t.resCode = .listening ∧ AfterRun s.cfg 0 t :=
  ⟨_, performRow_abort hs hr, rfl, rfl, hs, rfl, by simp⟩

/-- One PREAMBLE more: the third in a run aborts, and the count goes on modulo three (40_process.md R94). -/
theorem AfterRun.feed_preamble (h : AfterRun c n s) (hc : c.wf = true) :
    ∃ t, exec (.feed c.preamble) s = .next t ∧ t.resCode = .listening ∧ AfterRun c (n + 1) t := by
  have hcursor := h.cursor_eq
  obtain ⟨rfl, hs, hstate, hbytes⟩ := h
  have hcap := Config.wf_capacity hc
  rcases runState_mod_cases n with ⟨hn, hd⟩ | ⟨hn, hd⟩ | ⟨hn, hd⟩ <;> rw [hd] at hstate <;> rw [hn] at hbytes hcursor
  · obtain ⟨t, hfeed, hres, ht⟩ := feed_preamble_of_idle hc hs hstate
    exact ⟨t, hfeed, hres, ht.congr (by omega)⟩
  · have hr : selectedRow s s.cfg.preamble = .attnPre := by simp [selectedRow_eq_byteRow hc, hstate, byteRow]
    obtain ⟨t, hfeed, hres, hcfg, hseen, hstart, happ⟩ :=
      feed_appends (d := .start) (res := .listening) hc hs (by rw [hr]; rfl) (by simp [hr, rowBase]; omega)
    have ht : AfterRun s.cfg 2 t := ⟨hcfg, hseen, hstart, by rw [happ, hr, rowBase_of_ne (by decide), hbytes]; rfl⟩
    exact ⟨t, hfeed, hres, ht.congr (by omega)⟩
  · obtain ⟨hne, -⟩ := Config.wf_distinct hc
    have hr : selectedRow s s.cfg.preamble = .startAbort := by simp [selectedRow_eq_byteRow hc, hstate, byteRow, hne]
    obtain ⟨t, hfeed, hres, ht⟩ := afterRun_zero_of_aborts (b := s.cfg.preamble) hs (by rw [hr]; rfl)
    exact ⟨t, hfeed, hres, ht.congr (by omega)⟩

/-- Any other byte ends the run, unless it is the START that passes START.STX (40_process.md R82, R84, R86). -/
theorem AfterRun.feed_other (h : AfterRun c n s) (hc : c.wf = true) (hb : b ≠ c.preamble)
    (hstx : s.state = .start → b ≠ c.start) :
    ∃ t, exec (.feed b) s = .next t ∧ t.resCode = .listening ∧ AfterRun c 0 t := by
  obtain ⟨rfl, hs, hstate, hbytes⟩ := h
  rcases runState_mod_cases n with ⟨hn, hd⟩ | ⟨hn, hd⟩ | ⟨hn, hd⟩ <;> rw [hd] at hstate
  · have hr : selectedRow s b = .idleIgn := by simp [selectedRow_eq_byteRow hc, hstate, byteRow, hb]
    refine ⟨finishFeed .listening s, by rw [exec_feed, hr, performRow_ign hs], rfl, rfl, hs, hstate, ?_⟩
    simpa [hn] using hbytes
  · exact afterRun_zero_of_aborts hs (by simp [selectedRow_eq_byteRow hc, hstate, byteRow, hb, rowAborts])
  · exact afterRun_zero_of_aborts hs (by simp [selectedRow_eq_byteRow hc, hstate, byteRow, hstx hstate, rowAborts])

/-- A START after the run starts a frame exactly after two preambles (40_process.md R94, R85). -/
theorem AfterRun.feed_start (h : AfterRun c n s) (hc : c.wf = true) :
    ∃ t, exec (.feed c.start) s = .next t ∧ (t.state = .addr ↔ n % 3 = 2) := by
  by_cases hn : n % 3 = 2
  · have hcursor := h.cursor_eq
    have hstart : s.state = .start := h.state_eq_start_iff.2 hn
    obtain ⟨rfl, hs, -, -⟩ := h
    have hcap := Config.wf_capacity hc
    have hr : selectedRow s s.cfg.start = .startStx := by simp [selectedRow_eq_byteRow hc, hstart, byteRow]
    exact ⟨_, feed_accepts hr rfl (by decide) hc hs (by omega), by simp [hn]⟩
  · obtain ⟨hne, -⟩ := Config.wf_distinct hc
    have hstart : s.state ≠ .start := fun hst => hn (h.state_eq_start_iff.1 hst)
    obtain ⟨t, hfeed, -, ht⟩ := h.feed_other hc hne.symm fun hst => absurd hst hstart
    exact ⟨t, hfeed, by simp [ht.state_eq, runState, hn]⟩

/-- The preambles of a run from Idle. -/
theorem feedAll_preambles (hc : s.cfg.wf = true) (hs : s.resetSeen = true) (hidle : s.state = .idle) (hn : 1 ≤ n) :
    ∃ t, feedAll (List.replicate n s.cfg.preamble) s = .next t ∧ AfterRun s.cfg n t := by
  induction n, hn using Nat.le_induction with
  | base =>
    obtain ⟨t, hfeed, -, ht⟩ := feed_preamble_of_idle hc hs hidle
    exact ⟨t, feedAll_cons hfeed, ht⟩
  | succ n _ ih =>
    obtain ⟨u, hall, hu⟩ := ih
    obtain ⟨t, hfeed, -, ht⟩ := hu.feed_preamble hc
    exact ⟨t, by rw [List.replicate_succ', feedAll_append hall, feedAll_cons hfeed, feedAll_nil], ht⟩

/-! #### Sequences that never pass START.STX -/

/-- The length of the PREAMBLE run that a sequence ends in. -/
def trailingRun (c : Config) (bs : List Byte) : Nat := (bs.reverse.takeWhile (· == c.preamble)).length

theorem trailingRun_concat (c : Config) (bs : List Byte) (b : Byte) :
    trailingRun c (bs ++ [b]) = if b = c.preamble then trailingRun c bs + 1 else 0 := by
  by_cases h : b = c.preamble <;> simp [trailingRun, h]

theorem trailingRun_ne_zero_iff {bs : List Byte} : trailingRun c bs ≠ 0 ↔ bs.getLast? = some c.preamble := by
  rcases List.eq_nil_or_concat bs with rfl | ⟨l, b, rfl⟩
  · simp [trailingRun]
  · simp [trailingRun_concat]

/-- A trailing run of two is two PREAMBLE bytes at the end. -/
theorem suffix_of_two_le_trailingRun {bs : List Byte} (h : 2 ≤ trailingRun c bs) : [c.preamble, c.preamble] <:+ bs := by
  obtain ⟨l, rfl⟩ : ∃ l, bs = l ++ [c.preamble] := List.getLast?_eq_some_iff.1 (trailingRun_ne_zero_iff.1 (by omega))
  have h1 : 1 ≤ trailingRun c l := by simpa [trailingRun_concat] using h
  obtain ⟨m, rfl⟩ : ∃ m, l = m ++ [c.preamble] := List.getLast?_eq_some_iff.1 (trailingRun_ne_zero_iff.1 (by omega))
  exact ⟨m, by simp⟩

/-- The premise of 40_process.md R97: no START of the sequence is fed in state Start. -/
def NeverStarts (s : State) (bs : List Byte) : Prop :=
  ∀ p q u, bs = p ++ s.cfg.start :: q → feedAll p s = .next u → u.state ≠ .start

theorem NeverStarts.of_append {p q : List Byte} (h : NeverStarts s (p ++ q)) : NeverStarts s p :=
  fun p' q' u hp hu => h p' (q' ++ q) u (by simp [hp]) hu

/-- 40_process.md R97: such a sequence leaves the block where its trailing PREAMBLE run alone would. -/
theorem feedAll_of_neverStarts {bs : List Byte} (hc : s.cfg.wf = true) (h0 : AfterRun s.cfg 0 s)
    (hn : NeverStarts s bs) :
    ∃ u, feedAll bs s = .next u ∧ responses bs s = List.replicate bs.length .listening ∧
      AfterRun s.cfg (trailingRun s.cfg bs) u := by
  induction bs using List.reverseRecOn with
  | nil => exact ⟨s, rfl, rfl, h0⟩
  | append_singleton bs b ih =>
    obtain ⟨u, hall, hresp, hu⟩ := ih hn.of_append
    have hstx : u.state = .start → b ≠ s.cfg.start := by
      rintro hstart rfl
      exact hn bs [] u rfl hall hstart
    have hstep : ∃ t, exec (.feed b) u = .next t ∧ t.resCode = .listening ∧
        AfterRun s.cfg (trailingRun s.cfg (bs ++ [b])) t := by
      rw [trailingRun_concat]
      split_ifs with hb
      · exact hb ▸ hu.feed_preamble hc
      · exact hu.feed_other hc hb hstx
    obtain ⟨t, hfeed, hres, ht⟩ := hstep
    refine ⟨t, ?_, ?_, ht⟩
    · rw [feedAll_append hall, feedAll_cons hfeed, feedAll_nil]
    · rw [responses_append hall, responses_cons hfeed, hresp, hres, List.length_append, List.length_singleton,
        List.replicate_succ']
      rfl

/-- A sequence without PREAMBLE PREAMBLE START meets the premise: the block is in Start only after two PREAMBLE bytes. By
induction on the number of bytes before the START in question. -/
theorem neverStarts_of_no_header {bs : List Byte} (hc : s.cfg.wf = true) (h0 : AfterRun s.cfg 0 s)
    (hbs : ¬ [s.cfg.preamble, s.cfg.preamble, s.cfg.start] <:+: bs) : NeverStarts s bs := by
  intro p
  induction hlen : p.length using Nat.strong_induction_on generalizing p with
  | _ n ih =>
    intro q u hp hu hstart
    have hbefore : NeverStarts s p := fun p' q' u' hp' =>
      ih p'.length (by simp [← hlen, hp']) p' rfl (q' ++ s.cfg.start :: q) u' (by simp [hp, hp'])
    obtain ⟨u', hu', -, hrun⟩ := feedAll_of_neverStarts hc h0 hbefore
    obtain rfl : u' = u := by simpa [hu'] using hu
    have h2 : trailingRun s.cfg p % 3 = 2 := hrun.state_eq_start_iff.1 hstart
    obtain ⟨m, rfl⟩ := suffix_of_two_le_trailingRun (show 2 ≤ trailingRun s.cfg p by omega)
    exact hbs ⟨m, q, by simp [hp]⟩

end

end Sys2Proof.Machine

namespace Sys2Proof
open Machine

/-- Settles O29: by induction on the run, which steps through the three states of `runState` in turn. -/
theorem preambleRunsCountModuloThree : Obligations.PreambleRunsCountModuloThree := by
  unfold Obligations.PreambleRunsCountModuloThree
  intro s n hc hs hidle hn
  obtain ⟨t, hall, ht⟩ := feedAll_preambles hc hs hidle hn
  have hstate := ht.state_eq
  have hcursor := ht.cursor_eq
  refine ⟨t, hall, ht.bytes, ?_, ?_, ?_, ht.feed_start hc⟩ <;>
  · intro h
    rw [h] at hstate hcursor
    exact ⟨hstate, hcursor⟩

/-- Settles O31: every initial segment leaves the block where its trailing PREAMBLE run alone would
(`feedAll_of_neverStarts`). -/
theorem noStartSequenceNoFrame : Obligations.NoStartSequenceNoFrame := by
  unfold Obligations.NoStartSequenceNoFrame
  intro s bs hc hs hidle hcursor
  have h0 : AfterRun s.cfg 0 s := ⟨rfl, hs, hidle, State.validBytes_nil hcursor⟩
  refine ⟨fun hn => ⟨?_, ?_⟩, neverStarts_of_no_header hc h0⟩
  · rintro p q rfl
    obtain ⟨u, hall, hresp, hu⟩ := feedAll_of_neverStarts hc h0 (NeverStarts.of_append hn)
    have hstate : u.state = .idle ∨ u.state = .attn ∨ u.state = .start := by
      rw [hu.state_eq]
      exact (runState_mod_cases _).imp And.right (Or.imp And.right And.right)
    have hcur := hu.cursor_eq
    exact ⟨u, hall, hresp, hstate, by omega⟩
  · obtain ⟨u, hall, -, hu⟩ := feedAll_of_neverStarts hc h0 hn
    refine ⟨u, hall, ?_⟩
    calc u.cursor = 0 ∧ u.state = .idle
      _ ↔ trailingRun s.cfg bs % 3 = 0 := by
        rw [hu.cursor_eq, hu.state_eq, and_iff_left_iff_imp]
        intro h
        rw [h]; rfl
      _ ↔ bs = [] ∨ bs.getLast? ≠ some s.cfg.preamble ∨ trailingRun s.cfg bs % 3 = 0 := by
        constructor
        · exact fun h => .inr (.inr h)
        · rintro (rfl | h | h)
          · rfl
          · have hzero : trailingRun s.cfg bs = 0 := not_not.1 fun hne => h (trailingRun_ne_zero_iff.1 hne)
            rw [hzero]
          · exact h

end Sys2Proof

/-! ### The escape round trip (30_encoding.md R63, 41_view.md R120) and the frame of the reads (R118) -/

namespace Sys2Proof.Machine

/-! #### Escaping and its inverse -/

section
variable {c : Config} {x : Byte}

theorem mustEscape_eq_false_iff : mustEscape c x = false ↔ x ≠ c.stop ∧ x ≠ c.escape ∧ x ≠ c.preamble := by
  simp [mustEscape, and_assoc]

theorem escapeData_cons_escaped (h : mustEscape c x = true) (d : List Byte) :
    escapeData c (x :: d) = c.escape :: x :: escapeData c d := by
  simp [escapeData, h]

theorem escapeData_cons_plain (h : mustEscape c x = false) (d : List Byte) :
    escapeData c (x :: d) = x :: escapeData c d := by
  simp [escapeData, h]

/-- No ESCAPE stands alone in escaped data, so no byte past its end is read. -/
theorem collapse_escapeData (c : Config) (past : Byte) (d : List Byte) :
    collapse c.escape past (escapeData c d) = d := by
  induction d with
  | nil => rfl
  | cons x d ih =>
    cases h : mustEscape c x with
    | true => rw [escapeData_cons_escaped h, collapse_cons_pair, ih]
    | false =>
      obtain ⟨-, hesc, -⟩ := mustEscape_eq_false_iff.1 h
      rw [escapeData_cons_plain h, collapse_cons_plain hesc, ih]

end

/-! #### Feeding a frame -/

/-- The block at configuration `c` is in state `st`, has seen a RESET, and its valid bytes are `l`. -/
structure Holds (c : Config) (st : DecoderState) (l : List Byte) (s : State) : Prop where
  cfg_eq    : s.cfg = c
  resetSeen : s.resetSeen = true
  state_eq  : s.state = st
  bytes     : s.validBytes = l

/-- The FEEDs of `bs` take `s` to `t`, and each answers LISTENING. -/
structure Listens (bs : List Byte) (s t : State) : Prop where
  feeds   : feedAll bs s = .next t
  answers : responses bs s = List.replicate bs.length .listening

section
variable {c : Config} {st d : DecoderState} {res : Res} {l bs cs : List Byte} {b : Byte} {s t u : State}

theorem Listens.nil (s : State) : Listens [] s s := ⟨rfl, rfl⟩

theorem Listens.cons (h : exec (.feed b) s = .next t) (hres : t.resCode = .listening) (hbs : Listens bs t u) :
    Listens (b :: bs) s u where
  feeds := by rw [feedAll_cons h, hbs.feeds]
  answers := by rw [responses_cons h, hres, hbs.answers, List.length_cons, List.replicate_succ]

theorem Listens.append (hbs : Listens bs s t) (hcs : Listens cs t u) : Listens (bs ++ cs) s u where
  feeds := by rw [feedAll_append hbs.feeds, hcs.feeds]
  answers := by
    rw [responses_append hbs.feeds, hbs.answers, hcs.answers, List.length_append, List.replicate_append_replicate]

/-- A last FEED that answers otherwise. -/
theorem Listens.concat (hbs : Listens bs s t) (h : exec (.feed b) t = .next u) :
    feedAll (bs ++ [b]) s = .next u ∧
      responses (bs ++ [b]) s = List.replicate ((bs ++ [b]).length - 1) .listening ++ [u.resCode] := by
  constructor
  · rw [feedAll_append hbs.feeds, feedAll_cons h, feedAll_nil]
  · rw [responses_append hbs.feeds, hbs.answers, responses_cons h, List.length_append, List.length_singleton,
      Nat.add_sub_cancel]
    rfl

theorem Holds.cursor_eq (h : Holds c st l s) : s.cursor = l.length := by
  simpa using congrArg List.length h.bytes

/-- A byte that an appending row takes below C joins the valid bytes (40_process.md R83 to R92). -/
theorem Holds.feed (h : Holds c st l s) (hc : c.wf = true) (hr : rowTarget (byteRow c b st) = some (d, res))
    (hne : byteRow c b st ≠ .idlePre) (hlt : l.length < c.capacity) :
    ∃ t, exec (.feed b) s = .next t ∧ t.resCode = res ∧ Holds c d (l ++ [b]) t := by
  have hcursor := h.cursor_eq
  obtain ⟨rfl, hs, rfl, rfl⟩ := h
  rw [← selectedRow_eq_byteRow hc] at hr hne
  obtain ⟨t, hfeed, hres, hcfg, hseen, hstate, hbytes⟩ :=
    feed_appends hc hs hr (by rwa [rowBase_of_ne hne, hcursor])
  rw [rowBase_of_ne hne] at hbytes
  exact ⟨t, hfeed, hres, hcfg, hseen, hstate, hbytes⟩

/-- The five bytes before the data, from Idle at any cursor (40_process.md R81, R83, R85, R87, R88). -/
theorem listens_frameHead (hc : s.cfg.wf = true) (hs : s.resetSeen = true) (hidle : s.state = .idle) (a ty : Byte) :
    ∃ t, Listens [s.cfg.preamble, s.cfg.preamble, s.cfg.start, a, ty] s t ∧
      Holds s.cfg .data [s.cfg.preamble, s.cfg.preamble, s.cfg.start, a, ty] t := by
  have hcap := Config.wf_capacity hc
  obtain ⟨s₁, hfeed₁, hres₁, hcfg, hseen, hstate, hbytes⟩ := feed_preamble_of_idle hc hs hidle
  have h₁ : Holds s.cfg .attn [s.cfg.preamble] s₁ := ⟨hcfg, hseen, hstate, hbytes⟩
  obtain ⟨s₂, hfeed₂, hres₂, h₂⟩ := h₁.feed (b := s.cfg.preamble) (d := .start) (res := .listening) hc
    (by simp [byteRow, rowTarget]) (by simp [byteRow]) (by simp; omega)
  obtain ⟨s₃, hfeed₃, hres₃, h₃⟩ := h₂.feed (b := s.cfg.start) (d := .addr) (res := .listening) hc
    (by simp [byteRow, rowTarget]) (by simp [byteRow]) (by simp; omega)
  obtain ⟨s₄, hfeed₄, hres₄, h₄⟩ := h₃.feed (b := a) hc rfl (by simp [byteRow]) (by simp; omega)
  obtain ⟨s₅, hfeed₅, hres₅, h₅⟩ := h₄.feed (b := ty) hc rfl (by simp [byteRow]) (by simp; omega)
  exact ⟨s₅, .cons hfeed₁ hres₁ <| .cons hfeed₂ hres₂ <| .cons hfeed₃ hres₃ <| .cons hfeed₄ hres₄ <|
    .cons hfeed₅ hres₅ <| .nil s₅, h₅⟩

/-- An ESCAPE and its literal, whatever byte that is (40_process.md R90, R92). -/
theorem Holds.listens_escaped (h : Holds c .data l s) (hc : c.wf = true) (x : Byte)
    (hlt : l.length + 1 < c.capacity) :
    ∃ t, Listens [c.escape, x] s t ∧ Holds c .data (l ++ [c.escape, x]) t := by
  obtain ⟨-, -, -, -, -, hne⟩ := Config.wf_distinct hc
  obtain ⟨s₁, hfeed₁, hres₁, h₁⟩ := h.feed (b := c.escape) (d := .escape) (res := .listening) hc
    (by simp [byteRow, hne.symm, rowTarget]) (by simp [byteRow, hne.symm]) (by omega)
  obtain ⟨s₂, hfeed₂, hres₂, h₂⟩ := h₁.feed (b := x) hc rfl (by simp [byteRow]) (by simpa using hlt)
  exact ⟨s₂, .cons hfeed₁ hres₁ <| .cons hfeed₂ hres₂ <| .nil s₂, by simpa using h₂⟩

/-- A data byte that the transmitter sends as it is (40_process.md R91). -/
theorem Holds.listens_plain (h : Holds c .data l s) (hc : c.wf = true) {x : Byte} (hx : mustEscape c x = false)
    (hlt : l.length < c.capacity) :
    ∃ t, Listens [x] s t ∧ Holds c .data (l ++ [x]) t := by
  obtain ⟨hstop, hesc, -⟩ := mustEscape_eq_false_iff.1 hx
  obtain ⟨t, hfeed, hres, ht⟩ := h.feed (b := x) (d := .data) (res := .listening) hc
    (by simp [byteRow, hstop, hesc, rowTarget]) (by simp [byteRow, hstop, hesc]) hlt
  exact ⟨t, .cons hfeed hres <| .nil t, ht⟩

/-- Escaped data goes into the buffer as it stands on the wire, and leaves the block in Data. -/
theorem Holds.listens_escapeData (h : Holds c .data l s) (hc : c.wf = true) (data : List Byte)
    (hlen : l.length + (escapeData c data).length ≤ c.capacity) :
    ∃ t, Listens (escapeData c data) s t ∧ Holds c .data (l ++ escapeData c data) t := by
  induction data generalizing l s with
  | nil => exact ⟨s, .nil s, by simpa [escapeData] using h⟩
  | cons x data ih =>
    cases hx : mustEscape c x with
    | true =>
      rw [escapeData_cons_escaped hx] at hlen ⊢
      simp only [List.length_cons] at hlen
      obtain ⟨t, hpair, ht⟩ := h.listens_escaped hc x (by omega)
      obtain ⟨u, hrest, hu⟩ := ih ht (by simp; omega)
      exact ⟨u, hpair.append hrest, by simpa using hu⟩
    | false =>
      rw [escapeData_cons_plain hx] at hlen ⊢
      simp only [List.length_cons] at hlen
      obtain ⟨t, hbyte, ht⟩ := h.listens_plain hc hx (by omega)
      obtain ⟨u, hrest, hu⟩ := ih ht (by simp; omega)
      exact ⟨u, hbyte.append hrest, by simpa using hu⟩

/-- 10_state.md R24 at a FEED. -/
theorem exec_feed_frameValid (h : exec (.feed b) s = .next t) : t.frameValid = decide (t.resCode = .complete) := by
  obtain ⟨-, ⟨-, rfl⟩ | ⟨-, rfl⟩ | ⟨-, -, -, -, rfl⟩ | ⟨-, -, -, -, rfl⟩⟩ := performRow_next h <;> rfl

/-- A frame of the transmitter's encoding that fits in the buffer: LISTENING on every byte but its STOP, which completes
it (40_process.md R89), and the buffer holds the frame as it was sent. -/
theorem feedAll_frameBytes (hc : s.cfg.wf = true) (hs : s.resetSeen = true) (hidle : s.state = .idle) {a ty : Byte}
    {data : List Byte} (hlen : (frameBytes s.cfg a ty data).length ≤ s.cfg.capacity) :
    ∃ u, feedAll (frameBytes s.cfg a ty data) s = .next u ∧
      responses (frameBytes s.cfg a ty data) s =
        List.replicate ((frameBytes s.cfg a ty data).length - 1) .listening ++ [.complete] ∧
      u.frameValid = true ∧ Holds s.cfg .idle (frameBytes s.cfg a ty data) u := by
  rw [frameBytes] at hlen ⊢
  rw [List.length_append, List.length_append, List.length_singleton] at hlen
  obtain ⟨s₁, hhead, h₁⟩ := listens_frameHead hc hs hidle a ty
  obtain ⟨s₂, hbody, h₂⟩ := h₁.listens_escapeData hc data (by omega)
  obtain ⟨u, hstop, hres, hu⟩ := h₂.feed (b := s.cfg.stop) (d := .idle) (res := .complete) hc
    (by simp [byteRow, rowTarget]) (by simp [byteRow]) (by rw [List.length_append]; omega)
  obtain ⟨hfeeds, hanswers⟩ := (hhead.append hbody).concat hstop
  rw [hres] at hanswers
  exact ⟨u, hfeeds, hanswers, by rw [exec_feed_frameValid hstop, hres]; rfl, hu⟩

end

/-! #### Viewing a frame -/

section
variable {c : Config} {st : DecoderState} {a ty : Byte} {data : List Byte} {s : State}

theorem length_frameBytes : (frameBytes c a ty data).length = (escapeData c data).length + 6 := by
  simp [frameBytes]

theorem Holds.byteAt_eq {l : List Byte} {b : Byte} {i : Nat} (h : Holds c st l s) (hb : l[i]? = some b) :
    s.byteAt i = b := by
  have hi : i < s.cursor := by
    rw [h.cursor_eq]
    exact (List.getElem?_eq_some_iff.1 hb).1
  rw [← h.bytes, State.validBytes, State.getElem?_bytesFrom s hi, Nat.zero_add, Option.some.injEq] at hb
  exact hb

/-- The raw data region of a frame is what the transmitter sent between the type byte and the STOP (41_view.md R114). -/
theorem Holds.rawRegion_eq (h : Holds c st (frameBytes c a ty data) s) (hle : s.cursor ≤ s.cfg.capacity) :
    rawRegion s = escapeData c data := by
  have hcursor : s.cursor = (escapeData c data).length + 6 := h.cursor_eq.trans length_frameBytes
  calc rawRegion s
    _ = s.bytesFrom 5 (s.cursor - 6) := rawRegion_of_frame (by omega) hle
    _ = (s.validBytes.drop 5).take (s.cursor - 6) := by
      rw [State.validBytes, State.drop_bytesFrom, Nat.zero_add, State.take_bytesFrom s (by omega)]
    _ = escapeData c data := by simp [h.bytes, frameBytes, hcursor]

/-- The view's data is the transmitter's (41_view.md R115, R120). -/
theorem Holds.logicalData_eq (h : Holds c st (frameBytes c a ty data) s) (hle : s.cursor ≤ s.cfg.capacity) :
    logicalData s = data := by
  rw [logicalData, h.rawRegion_eq hle, h.cfg_eq, collapse_escapeData]

end

end Sys2Proof.Machine

namespace Sys2Proof
open Machine

/-- Settles O45: the frame is fed in three parts, header, escaped data and STOP, and the view then reads a buffer that holds
it as it was sent. -/
theorem escapeRoundTrip : Obligations.EscapeRoundTrip := by
  unfold Obligations.EscapeRoundTrip
  intro s a ty data hc hs hidle hlen
  obtain ⟨u, hfeeds, hanswers, hvalid, hu⟩ := feedAll_frameBytes hc hs hidle hlen
  have hcfg := hu.cfg_eq
  have hcu : u.cfg.wf = true := by rwa [hcfg]
  have haddr : u.byteAt 3 = a := hu.byteAt_eq rfl
  have htype : u.byteAt 4 = ty := hu.byteAt_eq rfl
  have hdata : logicalData u = data := hu.logicalData_eq (by rwa [hu.cursor_eq, hcfg])
  refine ⟨u, hfeeds, hanswers, ?_, ?_, ?_, fun k => ?_⟩
  · rw [exec_viewAddr hvalid hcu, haddr]; rfl
  · rw [exec_viewType hvalid hcu, htype, ← hcfg]; rfl
  · rw [exec_viewDlen hvalid, hdata]; rfl
  · rw [exec_viewData k hvalid, hdata]; rfl

/-- Settles O42: a read performs no row and is neither RESET nor NOP. -/
theorem readsWriteNoState : Obligations.ReadsWriteNoState := by
  unfold Obligations.ReadsWriteNoState
  intro s t i r hr h
  have hread : rowOf s r = none ∧ r ≠ .reset ∧ r ≠ .nop := by
    simp only [List.mem_cons, List.not_mem_nil, or_false] at hr
    obtain rfl | rfl | rfl | rfl | rfl := hr <;> simp [rowOf]
  obtain ⟨hrow, hreset, hnop⟩ := hread
  obtain ⟨ht, hvalid, -⟩ := exec_other_next hrow hreset h
  rw [ht]
  exact ⟨rfl, rfl, rfl, rfl, hvalid hnop, rfl, rfl, rfl, rfl⟩

end Sys2Proof

/-! ### The control transactions (42_control.md R131, R132) -/

namespace Sys2Proof
open Machine

/-- R132: `in_valid` and the byte do not matter at an edge with `rst = 1`. -/
theorem Machine.clockEdge_of_rst {p : PortsIn} (h : p.rst = true) (s : Machine.State) :
    clockEdge p s = exec .reset s := if_pos h

/-- Settles O33: NOP keeps `frame_valid`, the configuration and the buffer, which are all that VIEW_ADDR reads. -/
theorem nopKeepsTheView : Obligations.NopKeepsTheView := by
  unfold Obligations.NopKeepsTheView
  refine ⟨by decide, fun s => ⟨exec_nop s, fun hc hf => ?_⟩⟩
  exact ⟨reply .nothing (dropResValid s), exec_nop s, exec_viewAddr hf hc⟩

/-- Settles O57: the edge performs RESET, whose next state has the three values. -/
theorem resetWinsAtTheEdge : Obligations.ResetWinsAtTheEdge := by
  unfold Obligations.ResetWinsAtTheEdge
  intro p s hrst _
  have hedge := clockEdge_of_rst hrst s
  obtain ⟨t, ht⟩ : ∃ t, exec .reset s = .next t := ⟨_, exec_reset s⟩
  refine ⟨hedge, t, hedge.trans ht, ?_⟩
  rw [exec_reset_next ht]
  exact ⟨rfl, rfl, rfl⟩

end Sys2Proof

/-! ### BufferOverflow (60_exceptions.md R141, R142) -/

namespace Sys2Proof.Machine

section
variable {s t : State} {b : Byte}

/-- R141 in Data and Escape, where every row appends. -/
theorem feed_overflows_inFrame (hs : s.resetSeen = true) (hst : s.state = .data ∨ s.state = .escape)
    (hcur : s.cfg.capacity ≤ s.cursor) : exec (.feed b) s = .next s.afterOverflow := by
  obtain ⟨d, res, htarget, hne, -⟩ := rowTarget_inFrame (b := b) hst
  exact feed_overflows rfl htarget hne hs hcur

theorem afterOverflow_hold (h : s.cfg.ovfPolicy = .hold) :
    s.afterOverflow = s.afterFeed s.state s.cursor s.buf .overflow := by
  simp only [State.afterOverflow, h]

theorem afterOverflow_toIdle (h : s.cfg.ovfPolicy = .toIdle) :
    s.afterOverflow = s.afterFeed .idle 0 s.buf .overflow := by
  simp only [State.afterOverflow, h]

theorem afterOverflow_resCode (s : State) : s.afterOverflow.resCode = .overflow := by
  cases h : s.cfg.ovfPolicy with
  | hold => rw [afterOverflow_hold h]
  | toIdle => rw [afterOverflow_toIdle h]

/-- OVERFLOW is no row's own answer. -/
theorem rowTarget_ne_overflow {r : Row} {d : DecoderState} : rowTarget r ≠ some (d, .overflow) := by
  cases r <;> simp [rowTarget]

/-- The four rows of R142 are the rows of the states Data and Escape. -/
theorem byteRow_inFrame_iff {c : Config} {d : DecoderState} :
    (byteRow c b d = .dataEtx ∨ byteRow c b d = .dataDle ∨ byteRow c b d = .dataAcc ∨ byteRow c b d = .escLit) ↔
      d = .data ∨ d = .escape := by
  cases d
  case idle | attn | start | data => simp only [byteRow]; split_ifs <;> simp
  all_goals simp [byteRow]

/-- 10_state.md R31, the rows from Attn to Type: at most the header and the address byte are stored. -/
theorem BufferInv.cursor_le_four (h : BufferInv s) (hidle : s.state ≠ .idle) (hdata : s.state ≠ .data)
    (hesc : s.state ≠ .escape) : s.cursor ≤ 4 := by
  have hlen : s.validBytes.length = s.cursor := by simp
  have hshape := h.shape
  rw [← hlen]
  cases hst : s.state
  case attn | start | addr =>
    simp only [hst, shapeOk, beq_iff_eq] at hshape
    simp [hshape]
  case type =>
    simp only [hst, shapeOk, Bool.and_eq_true, beq_iff_eq] at hshape
    exact hshape.1.le
  all_goals contradiction

/-- Outside Data and Escape an append sees a cursor of at most 4: in Idle the one row that appends clears first. -/
theorem BufferInv.rowBase_cursor_le_four {d : DecoderState} {res : Res} (h : BufferInv s)
    (htarget : rowTarget (selectedRow s b) = some (d, res)) (hdata : s.state ≠ .data) (hesc : s.state ≠ .escape) :
    (rowBase (selectedRow s b) s).cursor ≤ 4 := by
  by_cases hidle : s.state = .idle
  · rw [selectedRow_eq_byteRow h.cfg_wf, hidle, byteRow] at htarget ⊢
    split_ifs at htarget ⊢
    · simp [rowBase]
    · cases htarget
  · exact (rowBase_cursor_le _ s).trans (h.cursor_le_four hidle hdata hesc)

/-- R142 by the state register: C is at least 6, so an append outside Data and Escape has room. -/
theorem BufferInv.feed_overflow_iff (hs : BufferInv s) (h : exec (.feed b) s = .next t) :
    t.resCode = .overflow ↔ s.cursor = s.cfg.capacity ∧ (s.state = .data ∨ s.state = .escape) := by
  constructor
  · intro hres
    obtain ⟨-, ⟨-, rfl⟩ | ⟨-, rfl⟩ | ⟨d, res, htarget, -, rfl⟩ | ⟨d, res, htarget, hge, -⟩⟩ := performRow_next h
    · cases hres
    · cases hres
    · cases hres
      exact absurd htarget rowTarget_ne_overflow
    · have hcap := Config.wf_capacity hs.cfg_wf
      refine ⟨hs.cursor_le.antisymm (hge.trans (rowBase_cursor_le _ s)), ?_⟩
      by_contra hst
      obtain ⟨hdata, hesc⟩ := not_or.1 hst
      have h4 := hs.rowBase_cursor_le_four htarget hdata hesc
      omega
  · rintro ⟨hcur, hst⟩
    obtain ⟨hseen, -⟩ := performRow_next h
    rw [feed_overflows_inFrame hseen hst hcur.ge, Host.Outcome.next.injEq] at h
    rw [← h, afterOverflow_resCode]

end

end Sys2Proof.Machine

namespace Sys2Proof
open Machine

/-- Settles O24: in Data and Escape every row appends, so at C the FEED leaves `State.afterOverflow`, split by the policy. -/
theorem overflowOutcomeFollowsPolicy : Obligations.OverflowOutcomeFollowsPolicy := by
  unfold Obligations.OverflowOutcomeFollowsPolicy
  refine ⟨rfl, fun s b hs hst hcur => ?_⟩
  rw [feed_overflows_inFrame hs hst hcur.ge]
  exact ⟨fun hp => by rw [afterOverflow_hold hp], fun hp => by rw [afterOverflow_toIdle hp]⟩

/-- Settles O25: the four rows are those of Data and Escape, and in the other states the invariant bounds the cursor. -/
theorem overflowOnlyWhenFullInDataOrEscape : Obligations.OverflowOnlyWhenFullInDataOrEscape := by
  unfold Obligations.OverflowOnlyWhenFullInDataOrEscape
  intro s t b hs h
  obtain ⟨hb, -⟩ := blockInv_iff.1 hs
  have hiff := hb.feed_overflow_iff h
  constructor
  · rwa [selectedRow_eq_byteRow hb.cfg_wf, byteRow_inFrame_iff]
  · intro hdata hesc
    constructor
    · intro hres
      obtain ⟨-, hst⟩ := hiff.1 hres
      exact hst.elim hdata hesc
    · exact or_iff_not_imp_left.2 fun hidle => hb.cursor_le_four hidle hdata hesc

end Sys2Proof

/-! ### The hold after an overflow (70_reset_and_hazards.md R163) -/

namespace Sys2Proof.Machine

/-- Where R163 finds the block: a frame has filled the buffer, and OVF_POLICY keeps it there. -/
structure Overflowing (s : State) : Prop where
  resetSeen : s.resetSeen = true
  policy    : s.cfg.ovfPolicy = .hold
  inFrame   : s.state = .data ∨ s.state = .escape
  full      : s.cursor = s.cfg.capacity

/-- What the hold leaves unchanged: all of the block's state but the response register, and the reset flag. -/
structure SameBlock (s t : State) : Prop where
  cfg        : t.cfg = s.cfg
  state      : t.state = s.state
  cursor     : t.cursor = s.cursor
  buf        : t.buf = s.buf
  frameValid : t.frameValid = s.frameValid
  resetSeen  : t.resetSeen = s.resetSeen

section
variable {s t u : State} {b : Byte} {i : Instr} {is : List Instr}

theorem SameBlock.refl (s : State) : SameBlock s s := ⟨rfl, rfl, rfl, rfl, rfl, rfl⟩

theorem SameBlock.trans (h : SameBlock s t) (h' : SameBlock t u) : SameBlock s u where
  cfg := h'.cfg.trans h.cfg
  state := h'.state.trans h.state
  cursor := h'.cursor.trans h.cursor
  buf := h'.buf.trans h.buf
  frameValid := h'.frameValid.trans h.frameValid
  resetSeen := h'.resetSeen.trans h.resetSeen

theorem Overflowing.congr (h : Overflowing s) (hst : SameBlock s t) : Overflowing t where
  resetSeen := hst.resetSeen.trans h.resetSeen
  policy := by rw [hst.cfg, h.policy]
  inFrame := by rw [hst.state]; exact h.inFrame
  full := by rw [hst.cursor, hst.cfg, h.full]

theorem exec_reset_idle (s : State) : ∃ u, exec .reset s = .next u ∧ u.state = .idle ∧ u.cursor = 0 :=
  ⟨_, exec_reset s, rfl, clear_cursor _⟩

/-- READ_RAW needs no frame and no RESET (41_view.md R111). -/
theorem exec_readRaw_completes (k : Index) (s : State) : ∃ t, exec (.readRaw k) s = .next t := by
  by_cases h : k.toNat < s.cursor ∧ k.toNat < s.cfg.capacity
  · exact ⟨_, exec_readRaw_below h.1 h.2⟩
  · exact ⟨_, exec_readRaw_draw (by omega)⟩

/-! #### FEEDs alone -/

theorem Overflowing.feed (h : Overflowing s) (b : Byte) :
    exec (.feed b) s = .next (s.afterFeed s.state s.cursor s.buf .overflow) := by
  rw [feed_overflows_inFrame h.resetSeen h.inFrame h.full.ge, afterOverflow_hold h.policy]

/-- A state that every FEED answers with itself. -/
theorem feedAll_of_fixed (h : ∀ b, exec (.feed b) s = .next s) (bs : List Byte) :
    feedAll bs s = .next s ∧ responses bs s = List.replicate bs.length s.resCode := by
  induction bs with
  | nil => exact ⟨rfl, rfl⟩
  | cons b bs ih =>
    obtain ⟨hall, hresp⟩ := ih
    exact ⟨by rw [feedAll_cons (h b), hall], by rw [responses_cons (h b), hresp]; rfl⟩

/-- The first FEED leaves a state that every later FEED leaves as it is. -/
theorem Overflowing.feedAll_overflows (h : Overflowing s) (b : Byte) (bs : List Byte) :
    feedAll (b :: bs) s = .next (s.afterFeed s.state s.cursor s.buf .overflow) ∧
      responses (b :: bs) s = List.replicate (b :: bs).length .overflow := by
  have hafter : Overflowing (s.afterFeed s.state s.cursor s.buf .overflow) :=
    ⟨h.resetSeen, h.policy, h.inFrame, h.full⟩
  obtain ⟨hall, hresp⟩ := feedAll_of_fixed hafter.feed bs
  exact ⟨by rw [feedAll_cons (h.feed b), hall], by rw [responses_cons (h.feed b), hresp]; rfl⟩

/-! #### Any transactions but RESET -/

/-- With `frame_valid` already 0 an overflow writes the response and nothing else. -/
theorem Overflowing.feed_of_no_frame (h : Overflowing s) (hv : s.frameValid = false) (b : Byte) :
    exec (.feed b) s = .next { s with resValid := true, resCode := .overflow, out := .response .overflow } := by
  simp [h.feed b, State.afterFeed, ← hv]

/-- A row performed is an overflow, and the other transactions write neither registers nor buffer. -/
theorem Overflowing.exec_sameBlock (h : Overflowing s) (hv : s.frameValid = false) (hi : i ≠ .reset)
    (hexec : exec i s = .next t) : SameBlock s t := by
  cases hr : rowOf s i with
  | some r =>
    obtain ⟨-, hfeed⟩ := exec_row_next hr hexec
    rw [h.feed_of_no_frame hv] at hfeed
    cases hfeed
    exact ⟨rfl, rfl, rfl, rfl, rfl, rfl⟩
  | none =>
    obtain ⟨ht, -⟩ := exec_other_next hr hi hexec
    rw [ht]
    exact ⟨rfl, rfl, rfl, rfl, rfl, rfl⟩

theorem Overflowing.execAll_sameBlock (h : Overflowing s) (hv : s.frameValid = false) (his : .reset ∉ is)
    (hall : execAll is s = .next t) : SameBlock s t := by
  induction is generalizing s with
  | nil => cases hall; exact .refl _
  | cons i is ih =>
    obtain ⟨u, hexec, hrest⟩ := execAll_cons_next hall
    have hsu : SameBlock s u := h.exec_sameBlock hv (List.ne_of_not_mem_cons his).symm hexec
    exact hsu.trans (ih (h.congr hsu) (hsu.frameValid.trans hv) (List.not_mem_of_not_mem_cons his) hrest)

theorem Overflowing.exec_completes (h : Overflowing s) (hi : i = .nop ∨ (∃ b, i = .feed b) ∨ ∃ k, i = .readRaw k) :
    ∃ t, exec i s = .next t := by
  rcases hi with rfl | ⟨b, rfl⟩ | ⟨k, rfl⟩
  · exact ⟨_, exec_nop s⟩
  · exact ⟨_, h.feed b⟩
  · exact exec_readRaw_completes k s

theorem Overflowing.execAll_completes (h : Overflowing s) (hv : s.frameValid = false)
    (his : ∀ i ∈ is, i = .nop ∨ (∃ b, i = .feed b) ∨ ∃ k, i = .readRaw k) : ∃ t, execAll is s = .next t := by
  induction is generalizing s with
  | nil => exact ⟨s, rfl⟩
  | cons i is ih =>
    obtain ⟨hi, his⟩ := List.forall_mem_cons.1 his
    have hne : i ≠ .reset := by
      rintro rfl
      simp at hi
    obtain ⟨u, hexec⟩ := h.exec_completes hi
    have hsu : SameBlock s u := h.exec_sameBlock hv hne hexec
    rw [execAll_cons hexec]
    exact ih (h.congr hsu) (hsu.frameValid.trans hv) his

/-- A valid frame is in Idle (10_state.md R32). -/
theorem Overflowing.frameValid_eq_false (h : Overflowing s) (hs : BlockInv s) : s.frameValid = false := by
  by_contra hv
  obtain ⟨hidle, -⟩ := frame_of_blockInv hs (Bool.of_not_eq_false hv)
  simpa [hidle] using h.inFrame

end

end Sys2Proof.Machine

namespace Sys2Proof
open Machine

/-- Settles O27: an overflow under HOLD leaves a state in which every FEED is the same overflow, and no other transaction but
RESET leaves `Overflowing`. -/
theorem holdAnswersOverflowUntilReset : Obligations.HoldAnswersOverflowUntilReset := by
  unfold Obligations.HoldAnswersOverflowUntilReset
  intro s hseen hp hst hcur
  have h : Overflowing s := ⟨hseen, hp, hst, hcur⟩
  constructor
  · intro bs
    cases bs with
    | nil =>
      exact ⟨s, rfl, rfl, rfl, rfl, rfl, rfl, hseen, fun hne => absurd rfl hne, fun _ => rfl, exec_reset_idle s⟩
    | cons b bs =>
      obtain ⟨hall, hresp⟩ := h.feedAll_overflows b bs
      exact ⟨_, hall, hresp, rfl, rfl, rfl, rfl, hseen, fun _ => rfl, nofun, exec_reset_idle _⟩
  · intro hs is hreset
    have hv := h.frameValid_eq_false hs
    refine ⟨h.execAll_completes hv, fun t hall => ?_⟩
    have hsame := h.execAll_sameBlock hv hreset hall
    have hvt : t.frameValid = false := hsame.frameValid.trans hv
    have ht : Overflowing t := h.congr hsame
    exact ⟨hsame.state, hsame.cursor, hsame.buf, hsame.cfg, ht.resetSeen, hsame.frameValid, hvt,
      ht.feed_of_no_frame hvt, exec_reset_idle t⟩

end Sys2Proof

/-! ### The encoder's words, and the transactions that stimulus lines and ports present (30_encoding.md R62, R66, R72) -/

namespace Sys2Proof

/-- The row that a row instruction's word selects gives the instruction back. -/
theorem decodeTW_of_encode {c : Config} {i : Instr} {w : TransitionWord} (hc : c.wf = true) (hi : i.wf c = true)
    (he : encode c i = .tw w) : decodeTW c w = i := by
  obtain ⟨-, -, h⟩ := Machine.exec_of_encode (s := Machine.State.resetWith c) hc hi he
  exact h

/-- A transaction's word has every must-be-0 bit 0, so it decodes in any configuration. -/
theorem decodeCW_of_encode {c : Config} {i : Instr} {w : CommandWord} (he : encode c i = .cw w) :
    decodeCW w = .ok i := by
  cases i <;> simp only [encode, TableWord.cw.injEq, reduceCtorEq] at he <;> subst he <;>
    simp [decodeCW, noOperand]

/-- Settles O4: a word's format says whether its instruction is a row or a transaction, and each decoder undoes its half of
the encoder. -/
theorem encodeDecodeRoundTrip : Obligations.EncodeDecodeRoundTrip := by
  unfold Obligations.EncodeDecodeRoundTrip
  intro c i hc hi
  cases he : encode c i with
  | tw w => exact congrArg Except.ok (decodeTW_of_encode hc hi he)
  | cw w => exact decodeCW_of_encode he

/-- Settles O1, by evaluating both decoders. -/
theorem specWordsDecode : Obligations.SpecWordsDecode := by
  unfold Obligations.SpecWordsDecode
  decide

/-! #### Command words as the tables print them -/

/-- A command word is its `op` pattern with the argument in the low bits. -/
theorem makeCW_eq_or (op : BitVec 3) (a : Index) : makeCW op a = makeCW op 0 ||| a.setWidth 12 := by
  apply BitVec.eq_of_getLsbD_eq
  intro i hi
  rw [BitVec.getLsbD_or, getLsbD_makeCW, getLsbD_makeCW]
  by_cases h : i < 9
  · simp [h, hi]
  · simp [h, BitVec.getLsbD_of_ge a i (by omega)]

theorem setWidth_feedArg (b : Byte) : (0#1 ++ b : Index).setWidth 12 = b.setWidth 12 := by
  apply BitVec.eq_of_getLsbD_eq
  intro i hi
  rw [BitVec.getLsbD_setWidth, BitVec.getLsbD_setWidth, getLsbD_feedArg]
  by_cases h : i < 8
  · simp [h]
  · simp [h, BitVec.getLsbD_of_ge b i (by omega)]

theorem encode_feed (c : Config) (b : Byte) : encode c (.feed b) = .cw (0x200 ||| b.setWidth 12) := by
  have h : makeCW 1 (0#1 ++ b) = 0x200 ||| b.setWidth 12 := by rw [makeCW_eq_or, setWidth_feedArg]; rfl
  exact congrArg TableWord.cw h

theorem encode_readRaw (c : Config) (i : Index) : encode c (.readRaw i) = .cw (0x600 ||| i.setWidth 12) := by
  rw [encode, makeCW_eq_or]; rfl

theorem encode_viewData (c : Config) (k : Index) : encode c (.viewData k) = .cw (0xE00 ||| k.setWidth 12) := by
  rw [encode, makeCW_eq_or]; rfl

/-- Settles O2: each pattern is the word that the encoder gives its transaction. -/
theorem commandWordPatterns : Obligations.CommandWordPatterns := by
  unfold Obligations.CommandWordPatterns
  intro b i p
  have hfeed := decodeCW_of_encode (encode_feed Config.default b)
  have hread := decodeCW_of_encode (encode_readRaw Config.default i)
  have hdata := decodeCW_of_encode (encode_viewData Config.default i)
  exact ⟨by decide, rfl, hfeed, rfl, by decide, rfl, hread, rfl, by decide, rfl, by decide, rfl, by decide, rfl, hdata, rfl⟩

/-! #### Codes -/

/-- Settles O7: the tables of R21, R69 and R70, and `DecoderState.ofCode_code`. -/
theorem registerCodes : Obligations.RegisterCodes := by
  unfold Obligations.RegisterCodes
  exact ⟨rfl, rfl, rfl, rfl, rfl, rfl, rfl, Machine.DecoderState.ofCode_code, rfl, rfl, rfl, rfl, rfl, by decide⟩

/-! #### Stimulus lines -/

namespace Machine

section
variable {c : Config} {i : Instr} {is : List Instr}

theorem cwOf_of_encode {w : CommandWord} (he : encode c i = .cw w) : cwOf c i = some w := by
  simp [cwOf, he]

/-- Every transaction has a command word (30_encoding.md R66). -/
theorem exists_encode_of_mem_instrs {l : Stim} (hi : i ∈ l.instrs c) : ∃ w, encode c i = .cw w := by
  cases l <;> simp only [Stim.instrs, List.mem_singleton, List.mem_map, List.mem_replicate] at hi
  case feed | frame => obtain ⟨b, -, rfl⟩ := hi; exact ⟨_, rfl⟩
  case feedRun => obtain ⟨-, rfl⟩ := hi; exact ⟨_, rfl⟩
  all_goals subst hi; exact ⟨_, rfl⟩

/-- Command words decode, in order, to the transactions they stand for. -/
theorem map_decodeCW_filterMap_cwOf (h : ∀ i ∈ is, ∃ w, encode c i = .cw w) :
    (is.filterMap (cwOf c)).map decodeCW = is.map .ok := by
  induction is with
  | nil => rfl
  | cons i is ih =>
    obtain ⟨⟨w, hw⟩, his⟩ := List.forall_mem_cons.1 h
    rw [List.filterMap_cons_some (cwOf_of_encode hw), List.map_cons, List.map_cons, decodeCW_of_encode hw, ih his]

theorem filterMap_cwOf_feeds (c : Config) (bs : List Byte) :
    (bs.map Instr.feed).filterMap (cwOf c) = bs.map fun b => 0x200 ||| b.setWidth 12 := by
  induction bs with
  | nil => rfl
  | cons b bs ih => rw [List.map_cons, List.filterMap_cons_some (cwOf_of_encode (encode_feed c b)), ih, List.map_cons]

theorem words_of_single {l : Stim} {w : CommandWord} (hl : l.instrs c = [i]) (he : encode c i = .cw w) :
    l.words c = [w] := by
  rw [Stim.words, hl, List.filterMap_cons_some (cwOf_of_encode he), List.filterMap_nil]

theorem words_feedRun (c : Config) (b : Byte) (n : Nat) :
    (Stim.feedRun b n).words c = List.replicate n (0x200 ||| b.setWidth 12) := by
  rw [Stim.words, Stim.instrs, ← List.map_replicate (f := Instr.feed), filterMap_cwOf_feeds, List.map_replicate]

end

end Machine

/-- Settles O60: the lines' words are the encoder's, which the decoder undoes one by one. -/
theorem stimulusWordsDecodeToTheirTransactions : Obligations.StimulusWordsDecodeToTheirTransactions := by
  unfold Obligations.StimulusWordsDecodeToTheirTransactions
  intro c
  refine ⟨rfl, Machine.filterMap_cwOf_feeds c, Machine.words_feedRun c, rfl, fun i => ?_, rfl, rfl, rfl, fun k => ?_,
    fun a t d => Machine.filterMap_cwOf_feeds c _, by decide, fun l => ?_⟩
  · exact Machine.words_of_single rfl (encode_readRaw c i)
  · exact Machine.words_of_single rfl (encode_viewData c k)
  · exact Machine.map_decodeCW_filterMap_cwOf fun i hi => Machine.exists_encode_of_mem_instrs hi

end Sys2Proof

/-! ### The step: one transaction of the host's queue (30_encoding.md R66, R76) -/

namespace Sys2Proof.Machine

section
variable {s t : State} {i : Instr} {w : CommandWord} {ws : List CommandWord}

theorem step_of_empty (hc : s.cfg.wf = true) (hq : s.inbox = []) : step s = exec .nop s := by
  simp [step, fetch, hc, hq]

theorem step_of_decoded (hc : s.cfg.wf = true) (hq : s.inbox = w :: ws) (hd : decodeCW w = .ok i) :
    step s = exec i { s with inbox := ws } := by
  simp [step, fetch, hc, hq, hd]

/-- A step that answers performed one instruction on the state with what was left of the queue. -/
theorem step_next (h : step s = .next t) : ∃ i ws, exec i { s with inbox := ws } = .next t := by
  cases hc : s.cfg.wf with
  | false => rw [step_of_not_wf hc] at h; cases h
  | true =>
    cases hq : s.inbox with
    | nil =>
      rw [step_of_empty hc hq] at h
      exact ⟨.nop, s.inbox, h⟩
    | cons w ws =>
      cases hd : decodeCW w with
      | error e => rw [step_of_reserved hc hq hd] at h; cases h
      | ok i =>
        rw [step_of_decoded hc hq hd] at h
        exact ⟨i, ws, h⟩

/-- The invariant does not speak of the queue. -/
theorem blockInv_inbox (hs : BlockInv s) (ws : List CommandWord) : BlockInv { s with inbox := ws } := by
  obtain ⟨hb, hflags⟩ := blockInv_iff.1 hs
  exact blockInv_iff.2 ⟨hb.congr rfl rfl rfl rfl, hflags⟩

end

/-! #### Transition words in the state they name -/

section
variable {s t : State} {b : Byte}

/-- 40_process.md R80, first line. -/
theorem exec_feed_eq_decodeTW (s : State) (b : Byte) :
    exec (.feed b) s = exec (decodeTW s.cfg (transitionWord s b)) s := by
  rw [decodeTW_selected, exec_selected rfl rfl]

/-- 40_process.md R80, last lines: the completion of a FEED. -/
theorem exec_feed_response (h : exec (.feed b) s = .next t) : t.resValid = true ∧ t.out = .response t.resCode := by
  obtain ⟨-, ⟨-, rfl⟩ | ⟨-, rfl⟩ | ⟨-, -, -, -, rfl⟩ | ⟨-, -, -, -, rfl⟩⟩ := performRow_next h <;> exact ⟨rfl, rfl⟩

/-- After a RESET a FEED answers (70_reset_and_hazards.md R162). -/
theorem exec_feed_completes (hs : s.resetSeen = true) (b : Byte) : ∃ t, exec (.feed b) s = .next t :=
  performRow_completes _ b hs

/-- In the state that a transition word names, the block forms that word from its byte. -/
theorem transitionWord_twByte {w : TransitionWord} (h : s.state.code = twState w) : transitionWord s (twByte w) = w := by
  rw [transitionWord, h, makeTW_fields]

/-- In the state that its word names, a row instruction does what a FEED of the word's byte does. -/
theorem exec_feed_of_encode {i : Instr} {w : TransitionWord} (hc : s.cfg.wf = true) (hi : i.wf s.cfg = true)
    (he : encode s.cfg i = .tw w) (hst : s.state.code = twState w) : exec (.feed (twByte w)) s = exec i s := by
  rw [exec_feed_eq_decodeTW, transitionWord_twByte hst, decodeTW_of_encode hc hi he]

end

end Sys2Proof.Machine

namespace Sys2Proof
open Machine

/-- Settles O53: a step is one instruction on a state that differs in its queue alone, and `exec_keeps_blockInv` holds for
every instruction. -/
theorem stepKeepsInv : Obligations.StepKeepsInv := by
  unfold Obligations.StepKeepsInv
  intro s t hs h
  obtain ⟨i, ws, hexec⟩ := step_next h
  exact exec_keeps_blockInv (blockInv_inbox hs ws) hexec

/-- Settles O8: the two ways a step finds its instruction. -/
theorem stepRunsDecodedInstruction : Obligations.StepRunsDecodedInstruction := by
  unfold Obligations.StepRunsDecodedInstruction
  intro s hc
  exact ⟨step_of_empty hc, fun i w ws hq hd => step_of_decoded hc hq hd⟩

/-- Settles O9: the placed command word decodes to its instruction, and in the state it names a transition word's FEED is its
row. -/
theorem stepRunsPlacedInstruction : Obligations.StepRunsPlacedInstruction := by
  unfold Obligations.StepRunsPlacedInstruction
  intro s i hc hi
  refine ⟨fun w he => ?_, fun w he => ⟨fun d hd => ?_, fun h7 => ?_⟩⟩
  · exact step_of_decoded (ws := s.inbox) hc rfl (decodeCW_of_encode he)
  · have hplace : placeWord s (some (.tw w)) = { s with state := d, inbox := feedWord (twByte w) :: s.inbox } := by
      simp [placeWord, ← hd]
    have hdec : decodeCW (feedWord (twByte w)) = .ok (.feed (twByte w)) := decodeCW_of_encode (c := s.cfg) rfl
    calc step (placeWord s (some (.tw w)))
      _ = step { s with state := d, inbox := feedWord (twByte w) :: s.inbox } := by rw [hplace]
      _ = exec (.feed (twByte w)) { s with state := d } := step_of_decoded (ws := s.inbox) hc rfl hdec
      _ = exec i { s with state := d } := exec_feed_of_encode hc hi he hd
  · have hplace : placeWord s (some (.tw w)) = { s with inbox := noWord :: s.inbox } := by
      simp [placeWord, h7, DecoderState.ofCode]
    rw [hplace]
    exact step_of_reserved (ws := s.inbox) hc rfl (by decide)

/-- Settles O11: the selected row's own instruction does what FEED does, and every row of a block that has seen a RESET is
performed to its end. -/
theorem feedPerformsTheSelectedRow : Obligations.FeedPerformsTheSelectedRow := by
  unfold Obligations.FeedPerformsTheSelectedRow
  intro s b
  refine ⟨exec_feed_eq_decodeTW s b, fun hs => ?_⟩
  obtain ⟨t, ht⟩ := exec_feed_completes hs b
  obtain ⟨hvalid, hout⟩ := exec_feed_response ht
  exact ⟨t, ht, exec_feed_frameValid ht, hvalid, hout⟩

/-- Settles O12: a word's row has the word's state code, and the selected row has the state register's. -/
theorem rowRunsOnlyInItsState : Obligations.RowRunsOnlyInItsState := by
  unfold Obligations.RowRunsOnlyInItsState
  intro s i w hc hi he
  constructor
  · intro hst
    obtain ⟨hrun, -, -⟩ := exec_of_encode hc hi he
    rw [hrun]
    refine runRow_unselected fun hsel => hst ?_
    simpa [selectedRow] using (congrArg Row.stateCode hsel).symm
  · intro hst hs
    obtain ⟨t, ht⟩ := exec_feed_completes hs (twByte w)
    exact ⟨t, (exec_feed_of_encode hc hi he hst.symm).symm.trans ht, ht⟩

/-- Settles O36: the flag that a FEED asks for is the one that RESET sets. -/
theorem feedNeedsAReset : Obligations.FeedNeedsAReset := by
  unfold Obligations.FeedNeedsAReset
  intro s b
  exact ⟨fun hs => exec_feed_unreset hs b, _, exec_reset s, exec_feed_completes rfl b⟩

end Sys2Proof

/-! ### The rows one by one (40_process.md R81 to R92) -/

namespace Sys2Proof.Machine

section
variable {s t : State} {b : Byte} {r : Row} {i : Instr} {d : DecoderState} {res : Res}

/-- A selected row is the instruction of the transition word, and FEED performs it. -/
theorem decodeTW_and_exec_of_selected (hr : selectedRow s b = r) (hi : r.instr b = i) :
    decodeTW s.cfg (transitionWord s b) = i ∧ exec (.feed b) s = exec i s := by
  rw [decodeTW_selected, hr, hi]
  exact ⟨rfl, (exec_selected hr hi).symm⟩

/-- Every row of Data and Escape: it appends below C, and overflows at C (60_exceptions.md R141). -/
theorem exec_of_selected_inFrame (hc : s.cfg.wf = true) (hs : s.resetSeen = true)
    (hst : s.state = .data ∨ s.state = .escape) (hr : selectedRow s b = r) (hi : r.instr b = i)
    (ht : rowTarget r = some (d, res)) (hne : r ≠ .idlePre) :
    decodeTW s.cfg (transitionWord s b) = i ∧ exec (.feed b) s = exec i s ∧
    (s.cursor < s.cfg.capacity →
      exec i s = .next (s.afterFeed d (s.cursor + 1) (s.buf.write s.cursor b) res)) ∧
    (s.cursor = s.cfg.capacity → exec i s = .next s.afterOverflow) := by
  obtain ⟨hdec, hexec⟩ := decodeTW_and_exec_of_selected hr hi
  rw [← hexec]
  exact ⟨hdec, rfl, feed_accepts hr ht hne hc hs, fun hcur => feed_overflows_inFrame hs hst hcur.ge⟩

/-! #### The valid bytes of each state (10_state.md R31) -/

theorem BufferInv.validBytes_attn (h : BufferInv s) (hst : s.state = .attn) : s.validBytes = [s.cfg.preamble] := by
  simpa [hst, shapeOk] using h.shape

theorem BufferInv.validBytes_start (h : BufferInv s) (hst : s.state = .start) :
    s.validBytes = [s.cfg.preamble, s.cfg.preamble] := by
  simpa [hst, shapeOk] using h.shape

theorem BufferInv.validBytes_addr (h : BufferInv s) (hst : s.state = .addr) :
    s.validBytes = [s.cfg.preamble, s.cfg.preamble, s.cfg.start] := by
  simpa [hst, shapeOk] using h.shape

theorem BufferInv.validBytes_type (h : BufferInv s) (hst : s.state = .type) :
    s.validBytes.length = 4 ∧ hasHeader s.cfg s.validBytes = true := by
  simpa [hst, shapeOk] using h.shape

theorem BufferInv.shapeOk_data (h : BufferInv s) (hst : s.state = .data) : shapeOk s.cfg .data s.validBytes = true := by
  simpa [hst] using h.shape

theorem BufferInv.validBytes_escape (h : BufferInv s) (hst : s.state = .escape) :
    ∃ m, s.validBytes = m ++ [s.cfg.escape] ∧ shapeOk s.cfg .data m = true :=
  shapeOk_escape_iff.1 (by simpa [hst] using h.shape)

theorem cursor_eq_of_validBytes {l : List Byte} (h : s.validBytes = l) : s.cursor = l.length := by
  simpa using congrArg List.length h

theorem BufferInv.cursor_attn (h : BufferInv s) (hst : s.state = .attn) : s.cursor = 1 :=
  cursor_eq_of_validBytes (h.validBytes_attn hst)

theorem BufferInv.cursor_start (h : BufferInv s) (hst : s.state = .start) : s.cursor = 2 :=
  cursor_eq_of_validBytes (h.validBytes_start hst)

theorem BufferInv.cursor_addr (h : BufferInv s) (hst : s.state = .addr) : s.cursor = 3 :=
  cursor_eq_of_validBytes (h.validBytes_addr hst)

theorem BufferInv.cursor_type (h : BufferInv s) (hst : s.state = .type) : s.cursor = 4 := by
  simpa using (h.validBytes_type hst).1

end

end Sys2Proof.Machine

namespace Sys2Proof
open Machine

/-- Settles O13: the row clears before it appends, so the cursor before it does not matter. -/
theorem idlePreStartsAFrame : Obligations.IdlePreStartsAFrame := by
  unfold Obligations.IdlePreStartsAFrame
  refine ⟨by decide, fun s hc hs hst => ?_⟩
  have hr : selectedRow s s.cfg.preamble = .idlePre := by simp [selectedRow_eq_byteRow hc, hst, byteRow]
  obtain ⟨hdec, hexec⟩ := decodeTW_and_exec_of_selected hr rfl
  exact ⟨hdec, hexec ▸ feed_startsFrame hr hc hs, hexec⟩

/-- Settles O14: the row writes the flags alone, and the `frame_valid` it leaves refuses a view. -/
theorem idleIgnKeepsTheBuffer : Obligations.IdleIgnKeepsTheBuffer := by
  unfold Obligations.IdleIgnKeepsTheBuffer
  intro s b hc hs hst hb
  have hr : selectedRow s b = .idleIgn := by simp [selectedRow_eq_byteRow hc, hst, byteRow, hb]
  obtain ⟨hdec, hexec⟩ := decodeTW_and_exec_of_selected hr rfl
  exact ⟨hdec, hexec ▸ feed_ignores hr hs, hexec, rfl⟩

/-- Settles O15: below C the row appends; the invariant has one valid byte in Attn. -/
theorem attnPreGoesToStart : Obligations.AttnPreGoesToStart := by
  unfold Obligations.AttnPreGoesToStart
  refine ⟨by decide, fun s hc hs hst hlt => ?_⟩
  have hr : selectedRow s s.cfg.preamble = .attnPre := by simp [selectedRow_eq_byteRow hc, hst, byteRow]
  obtain ⟨hdec, hexec⟩ := decodeTW_and_exec_of_selected hr rfl
  exact ⟨hdec, hexec ▸ feed_accepts hr rfl (by decide) hc hs hlt, hexec, fun h => (blockInv_iff.1 h).1.cursor_attn hst⟩

/-- Settles O16: both rows are of the aborting kind. -/
theorem abortRowsReturnToIdle : Obligations.AbortRowsReturnToIdle := by
  unfold Obligations.AbortRowsReturnToIdle
  intro s b hc hs
  constructor
  · intro hst hb
    have hr : selectedRow s b = .attnAbort := by simp [selectedRow_eq_byteRow hc, hst, byteRow, hb]
    obtain ⟨hdec, hexec⟩ := decodeTW_and_exec_of_selected hr rfl
    exact ⟨hdec, hexec ▸ feed_aborts hr rfl hs, hexec⟩
  · intro hst hb
    have hr : selectedRow s b = .startAbort := by simp [selectedRow_eq_byteRow hc, hst, byteRow, hb]
    obtain ⟨hdec, hexec⟩ := decodeTW_and_exec_of_selected hr rfl
    exact ⟨hdec, hexec ▸ feed_aborts hr rfl hs, hexec⟩

/-- Settles O17: below C the row appends; the invariant has two valid bytes in Start. -/
theorem startStxGoesToAddr : Obligations.StartStxGoesToAddr := by
  unfold Obligations.StartStxGoesToAddr
  refine ⟨by decide, fun s hc hs hst hlt => ?_⟩
  have hr : selectedRow s s.cfg.start = .startStx := by simp [selectedRow_eq_byteRow hc, hst, byteRow]
  obtain ⟨hdec, hexec⟩ := decodeTW_and_exec_of_selected hr rfl
  exact ⟨hdec, hexec ▸ feed_accepts hr rfl (by decide) hc hs hlt, hexec,
    fun h => (blockInv_iff.1 h).1.cursor_start hst⟩

/-- Settles O18: in Addr and Type the row does not depend on the byte. -/
theorem addrAndTypeAcceptEveryByte : Obligations.AddrAndTypeAcceptEveryByte := by
  unfold Obligations.AddrAndTypeAcceptEveryByte
  intro s b hc hs hlt
  constructor
  · intro hst
    have hr : selectedRow s b = .addrAcc := by simp [selectedRow_eq_byteRow hc, hst, byteRow]
    obtain ⟨hdec, hexec⟩ := decodeTW_and_exec_of_selected hr rfl
    exact ⟨hdec, hexec ▸ feed_accepts hr rfl (by decide) hc hs hlt, hexec,
      fun h => (blockInv_iff.1 h).1.cursor_addr hst⟩
  · intro hst
    have hr : selectedRow s b = .typeAcc := by simp [selectedRow_eq_byteRow hc, hst, byteRow]
    obtain ⟨hdec, hexec⟩ := decodeTW_and_exec_of_selected hr rfl
    exact ⟨hdec, hexec ▸ feed_accepts hr rfl (by decide) hc hs hlt, hexec,
      fun h => (blockInv_iff.1 h).1.cursor_type hst⟩

/-- Settles O19, as a row of Data. -/
theorem dataEtxCompletesOrOverflows : Obligations.DataEtxCompletesOrOverflows := by
  unfold Obligations.DataEtxCompletesOrOverflows
  refine ⟨by decide, fun s hc hs hst => ?_⟩
  have hr : selectedRow s s.cfg.stop = .dataEtx := by simp [selectedRow_eq_byteRow hc, hst, byteRow]
  exact exec_of_selected_inFrame hc hs (.inl hst) hr rfl rfl (by decide)

/-- Settles O20, as a row of Data: ESCAPE is not STOP in a well-formed configuration. -/
theorem dataDleEntersEscape : Obligations.DataDleEntersEscape := by
  unfold Obligations.DataDleEntersEscape
  refine ⟨by decide, fun s hc hs hst => ?_⟩
  obtain ⟨-, -, -, -, -, hne⟩ := Config.wf_distinct hc
  have hr : selectedRow s s.cfg.escape = .dataDle := by simp [selectedRow_eq_byteRow hc, hst, byteRow, hne.symm]
  exact exec_of_selected_inFrame hc hs (.inl hst) hr rfl rfl (by decide)

/-- Settles O21, as a row of Data. -/
theorem dataAccStoresTheByte : Obligations.DataAccStoresTheByte := by
  unfold Obligations.DataAccStoresTheByte
  intro s b hc hs hst hstop hesc
  have hr : selectedRow s b = .dataAcc := by simp [selectedRow_eq_byteRow hc, hst, byteRow, hstop, hesc]
  exact exec_of_selected_inFrame hc hs (.inl hst) hr rfl rfl (by decide)

/-- Settles O22, as the row of Escape. -/
theorem escLitStoresTheLiteral : Obligations.EscLitStoresTheLiteral := by
  unfold Obligations.EscLitStoresTheLiteral
  intro s b hc hs hst
  have hr : selectedRow s b = .escLit := by simp [selectedRow_eq_byteRow hc, hst, byteRow]
  exact exec_of_selected_inFrame hc hs (.inr hst) hr rfl rfl (by decide)

end Sys2Proof

/-! ### The reachable shapes and sizes (10_state.md R31, 00_scope.md R7) -/

namespace Sys2Proof.Machine

section
variable {s : State}

theorem byteAt_of_validBytes {k : Nat} {b : Byte} (h : s.validBytes[k]? = some b) : s.byteAt k = b := by
  have hk : k < s.cursor := by simpa using (List.getElem?_eq_some_iff.1 h).1
  rw [State.validBytes, State.getElem?_bytesFrom s hk, Nat.zero_add, Option.some.injEq] at h
  exact h

/-- From Addr on the buffer begins with the header. -/
theorem BufferInv.hasHeader (h : BufferInv s)
    (hst : s.state = .addr ∨ s.state = .type ∨ s.state = .data ∨ s.state = .escape) :
    hasHeader s.cfg s.validBytes = true := by
  rcases hst with hst | hst | hst | hst
  · simp [h.validBytes_addr hst, Machine.hasHeader]
  · exact (h.validBytes_type hst).2
  · exact (shapeOk_data_iff.1 (h.shapeOk_data hst)).2.1
  · obtain ⟨m, hm, hdata⟩ := h.validBytes_escape hst
    obtain ⟨h5, hheader, -⟩ := shapeOk_data_iff.1 hdata
    rwa [hm, hasHeader_append (by omega)]

theorem byteAt_of_hasHeader (h : hasHeader s.cfg s.validBytes = true) :
    s.byteAt 0 = s.cfg.preamble ∧ s.byteAt 1 = s.cfg.preamble ∧ s.byteAt 2 = s.cfg.start := by
  have htake : s.validBytes.take 3 = [s.cfg.preamble, s.cfg.preamble, s.cfg.start] := by simpa [hasHeader] using h
  have hget : ∀ k < 3, s.validBytes[k]? = [s.cfg.preamble, s.cfg.preamble, s.cfg.start][k]? := fun k hk => by
    rw [← htake, List.getElem?_take_of_lt hk]
  exact ⟨byteAt_of_validBytes (hget 0 (by decide)), byteAt_of_validBytes (hget 1 (by decide)),
    byteAt_of_validBytes (hget 2 (by decide))⟩

/-- The last valid byte. -/
theorem byteAt_last_of_validBytes {m : List Byte} {b : Byte} (h : s.validBytes = m ++ [b]) :
    s.byteAt (s.cursor - 1) = b := by
  have hlen : s.cursor = m.length + 1 := by simpa using cursor_eq_of_validBytes h
  rw [hlen, Nat.add_sub_cancel]
  exact byteAt_of_validBytes (by rw [h, List.getElem?_concat_length])

theorem BufferInv.five_le_cursor_data (h : BufferInv s) (hst : s.state = .data) : 5 ≤ s.cursor := by
  simpa using (shapeOk_data_iff.1 (h.shapeOk_data hst)).1

theorem BufferInv.escape_last (h : BufferInv s) (hst : s.state = .escape) :
    6 ≤ s.cursor ∧ s.byteAt (s.cursor - 1) = s.cfg.escape := by
  obtain ⟨m, hm, hdata⟩ := h.validBytes_escape hst
  have h5 := (shapeOk_data_iff.1 hdata).1
  have hlen : s.cursor = m.length + 1 := by simpa using cursor_eq_of_validBytes hm
  exact ⟨by omega, byteAt_last_of_validBytes hm⟩

/-- A valid frame's data: its collapse reads nothing past the region, and its length (41_view.md R116, R119). -/
theorem logicalData_of_blockInv (hs : BlockInv s) (hv : s.frameValid = true) :
    (∀ past, collapse s.cfg.escape past (s.bytesFrom 5 (s.cursor - 6)) = logicalData s) ∧
    (logicalData s).length ≤ s.cfg.capacity - 6 ∧ s.cursor - 6 ≤ 2 * (logicalData s).length := by
  obtain ⟨-, h6, hle, hframe⟩ := frame_of_blockInv hs hv
  obtain ⟨d, hd, rfl, h1, h2⟩ := logicalData_of_frame hle hframe
  exact ⟨hd, by omega, h2⟩

end

end Sys2Proof.Machine

namespace Sys2Proof
open Machine

/-- Settles O52: Idle at cursor 0 asks nothing of the buffer. -/
theorem resetMeetsInv : Obligations.ResetMeetsInv := by
  unfold Obligations.ResetMeetsInv
  exact ⟨blockInv_resetWith Config.default_wf, fun c hc => blockInv_resetWith hc⟩

/-- Settles O54: every reachable state meets the invariant, whose shape gives the table row by row. -/
theorem reachableStatesHaveTheirShape : Obligations.ReachableStatesHaveTheirShape := by
  unfold Obligations.ReachableStatesHaveTheirShape
  intro s hs
  obtain ⟨h, -, -⟩ := blockInv_iff.1 hs.blockInv
  refine ⟨s.state.code_ne_reserved, h.cursor_le, fun hst => ?_, fun hst => ⟨h.cursor_attn hst, ?_⟩,
    fun hst => ⟨h.cursor_start hst, ?_, ?_⟩, h.cursor_addr, h.cursor_type, h.five_le_cursor_data, h.escape_last,
    fun hst => byteAt_of_hasHeader (h.hasHeader hst)⟩
  · exact (h.idle_cases hst).imp_right fun hframe => ⟨by simpa using isFrame_length hframe, hframe⟩
  · exact byteAt_of_validBytes (by rw [h.validBytes_attn hst]; rfl)
  · exact byteAt_of_validBytes (by rw [h.validBytes_start hst]; rfl)
  · exact byteAt_of_validBytes (by rw [h.validBytes_start hst]; rfl)

/-- Settles O56: collapsing paired data at most halves it. -/
theorem frameSizesAreBounded : Obligations.FrameSizesAreBounded := by
  unfold Obligations.FrameSizesAreBounded
  refine ⟨rfl, fun s hs hv => ?_⟩
  obtain ⟨-, h6, hle, -⟩ := frame_of_blockInv hs hv
  obtain ⟨-, hlen⟩ := logicalData_of_blockInv hs hv
  exact ⟨h6, hle, hlen⟩

end Sys2Proof

/-! ### Reads and views (41_view.md R110 to R117) -/

namespace Sys2Proof.Machine

section
variable {s : State}

theorem requireFrame_refused (hv : s.frameValid = false) (k : Host.Outcome State Fault Refusal) :
    requireFrame s k = .refused .viewWithoutFrame := by
  simp [requireFrame, hv]

/-- 41_view.md R110, for the four view transactions. -/
theorem exec_view_refused (hv : s.frameValid = false) (k : Index) :
    exec .viewAddr s = .refused .viewWithoutFrame ∧ exec .viewType s = .refused .viewWithoutFrame ∧
    exec .viewDlen s = .refused .viewWithoutFrame ∧ exec (.viewData k) s = .refused .viewWithoutFrame :=
  ⟨requireFrame_refused hv _, requireFrame_refused hv _, requireFrame_refused hv _, requireFrame_refused hv _⟩

/-- With a table that is a partial map the first entry of a byte is its only one (00_scope.md R6 (d)). -/
theorem typeKind_of_mem {c : Config} (hc : c.wf = true) {b : Byte} {n : Fin 7} (h : (b, n) ∈ c.typeTable) :
    typeKind c b = .listed n := by
  obtain ⟨-, -, -, htable⟩ := (Config.wf_iff c).1 hc
  rw [typeKind]
  cases hfind : c.typeTable.find? fun e => e.1 == b with
  | none => simpa using List.find?_eq_none.1 hfind _ h
  | some e =>
    obtain ⟨a, m⟩ := e
    obtain rfl : a = b := by simpa using List.find?_some hfind
    exact congrArg Kind.listed ((Config.tableOk_iff c).1 htable a m n (List.mem_of_find?_eq_some hfind) h)

theorem typeKind_of_not_mem {c : Config} {b : Byte} (h : ∀ n, (b, n) ∉ c.typeTable) : typeKind c b = .unknown := by
  rw [typeKind]
  cases hfind : c.typeTable.find? fun e => e.1 == b with
  | none => rfl
  | some e =>
    obtain ⟨a, m⟩ := e
    obtain rfl : a = b := by simpa using List.find?_some hfind
    exact absurd (List.mem_of_find?_eq_some hfind) (h m)

theorem length_escapeData (c : Config) (d : List Byte) :
    (escapeData c d).length = d.length + d.countP (mustEscape c) := by
  induction d with
  | nil => rfl
  | cons x d ih =>
    cases h : mustEscape c x with
    | true => rw [escapeData_cons_escaped h, List.countP_cons_of_pos h]; simp only [List.length_cons, ih]; omega
    | false =>
      rw [escapeData_cons_plain h, List.countP_cons_of_neg (by simp [h])]; simp only [List.length_cons, ih]; omega

end

end Sys2Proof.Machine

namespace Sys2Proof
open Machine

/-- Settles O37, by the raw read's two cases. -/
theorem readRawBelowTheCursorOrADraw : Obligations.ReadRawBelowTheCursorOrADraw := by
  unfold Obligations.ReadRawBelowTheCursorOrADraw
  intro s i
  exact ⟨exec_readRaw_below, exec_readRaw_draw⟩

/-- Settles O38: index 3 is below every capacity. -/
theorem viewAddrReadsIndexThree : Obligations.ViewAddrReadsIndexThree := by
  unfold Obligations.ViewAddrReadsIndexThree
  intro s hc hv
  exact exec_viewAddr hv hc

/-- Settles O39: the kind is the one `typeKind` finds in the table. -/
theorem viewTypeReadsIndexFourAndItsKind : Obligations.ViewTypeReadsIndexFourAndItsKind := by
  unfold Obligations.ViewTypeReadsIndexFourAndItsKind
  intro s hc hv
  exact ⟨_, exec_viewType hv hc, fun n h => typeKind_of_mem hc h, typeKind_of_not_mem⟩

/-- Settles O40: the collapsed region is `logicalData`, which is what the two transactions read. -/
theorem viewDataIsTheCollapsedRegion : Obligations.ViewDataIsTheCollapsedRegion := by
  unfold Obligations.ViewDataIsTheCollapsedRegion
  intro s hs hv
  obtain ⟨hcollapse, hlen, -⟩ := logicalData_of_blockInv hs hv
  exact ⟨logicalData s, hcollapse, hlen, exec_viewDlen hv, fun k => exec_viewData k hv⟩

/-- Settles O41: all four ask for a frame first. -/
theorem viewsRefusedWithoutAFrame : Obligations.ViewsRefusedWithoutAFrame := by
  unfold Obligations.ViewsRefusedWithoutAFrame
  intro s k hv
  exact exec_view_refused hv k

/-- Settles O43: a valid frame is in Idle, where no FEED completes a frame. -/
theorem viewEndsAtTheNextFeed : Obligations.ViewEndsAtTheNextFeed := by
  unfold Obligations.ViewEndsAtTheNextFeed
  intro s t b k h hv hs
  have hc : s.cfg.wf = true := hs.1
  obtain ⟨hidle, -⟩ := frame_of_blockInv hs hv
  have hres : t.resCode ≠ .complete := fun hres => by
    obtain ⟨hr, -⟩ := (feed_complete_iff h).1 hres
    obtain ⟨hdata, -⟩ := byteRow_eq_dataEtx_iff.1 (selectedRow_eq_byteRow hc b ▸ hr)
    simp [hidle] at hdata
  have hvt : t.frameValid = false := by simp [exec_feed_frameValid h, hres]
  obtain ⟨haddr, htype, hdlen, hdata⟩ := exec_view_refused hvt k
  refine ⟨haddr, htype, hdlen, hdata, ?_⟩
  rintro rfl
  obtain ⟨hseen, -⟩ := performRow_next h
  have hr : selectedRow s s.cfg.preamble = .idlePre := by simp [selectedRow_eq_byteRow hc, hidle, byteRow]
  rw [feed_startsFrame hr hc hseen, Host.Outcome.next.injEq] at h
  subst h
  exact ⟨rfl, State.byteAt_write_same rfl⟩

/-- Settles O44: each escaped byte adds one ESCAPE, which the collapse drops. -/
theorem collapseUndoesEscaping : Obligations.CollapseUndoesEscaping := by
  unfold Obligations.CollapseUndoesEscaping
  intro c a t d _
  refine ⟨fun past => collapse_escapeData c past d, ?_⟩
  have hcount : d.countP (mustEscape c) = d.countP fun x => x == c.stop || x == c.escape || x == c.preamble := rfl
  rw [length_frameBytes, length_escapeData, hcount]
  omega

end Sys2Proof

/-! ### What an instruction writes: the frame of every one (10_state.md R24, 20_memory.md R41 to R45) -/

namespace Sys2Proof.Machine

section
variable {s t : State} {b : Byte} {r : Row} {i : Instr}

theorem rowTarget_of_aborts (h : rowAborts r = true) : rowTarget r = none := by
  cases r <;> simp [rowAborts, rowTarget] at h ⊢

/-- A row's buffer: the byte at its store index, or as it was. -/
theorem performRow_buf (h : performRow r b s = .next t) :
    (∃ a, rowStoreIndex s r = some a ∧ t.buf = s.buf.write a b) ∨ (rowStoreIndex s r = none ∧ t.buf = s.buf) := by
  obtain ⟨-, ⟨rfl, rfl⟩ | ⟨hr, rfl⟩ | ⟨d, res, hr, hlt, rfl⟩ | ⟨d, res, hr, hge, rfl⟩⟩ := performRow_next h
  · exact .inr ⟨rfl, rfl⟩
  · exact .inr ⟨rowStoreIndex_none (rowTarget_of_aborts hr) s, rfl⟩
  · exact .inl ⟨_, by rw [rowStoreIndex_target hr, if_pos hlt], by simp⟩
  · exact .inr ⟨by rw [rowStoreIndex_target hr, if_neg (Nat.not_lt_of_le hge)], by simp⟩

/-- No row writes the configuration or the queue (10_state.md R29). -/
theorem performRow_keeps (h : performRow r b s = .next t) : t.cfg = s.cfg ∧ t.inbox = s.inbox := by
  obtain ⟨-, ⟨-, rfl⟩ | ⟨-, rfl⟩ | ⟨d, res, -, -, rfl⟩ | ⟨d, res, -, -, rfl⟩⟩ := performRow_next h <;> simp

/-- An instruction of a row runs that row with its byte; FEED's row is always the selected one. -/
theorem exec_of_rowOf (hr : rowOf s i = some r) : exec i s = runRow r (rowByte s i) s := by
  cases i <;> simp only [rowOf, Option.some.injEq, reduceCtorEq] at hr <;> subst hr
  case feed b => exact (runRow_selected rfl).symm
  all_goals rfl

/-- Of an instruction that performs no row: RESET, or one that writes neither registers nor buffer. -/
theorem exec_other_keeps (hr : rowOf s i = none) (hi : i ≠ .reset) (h : exec i s = .next t) :
    t.state = s.state ∧ t.cursor = s.cursor ∧ t.buf = s.buf ∧ t.resCode = s.resCode ∧ t.frameValid = s.frameValid ∧
    t.cfg = s.cfg ∧ t.inbox = s.inbox := by
  obtain ⟨ht, -⟩ := exec_other_next hr hi h
  rw [ht]
  exact ⟨rfl, rfl, rfl, rfl, rfl, rfl, rfl⟩

theorem exec_reset_keeps (h : exec .reset s = .next t) : t.cfg = s.cfg ∧ t.inbox = s.inbox ∧ t.buf = s.buf := by
  rw [exec_reset_next h]
  exact ⟨rfl, rfl, rfl⟩

/-- The buffer after any instruction. -/
theorem exec_buf (h : exec i s = .next t) :
    (∃ a, storeIndex i s = some a ∧ t.buf = s.buf.write a (rowByte s i)) ∨ (storeIndex i s = none ∧ t.buf = s.buf) := by
  cases hr : rowOf s i with
  | some r =>
    have hstore : storeIndex i s = rowStoreIndex s r := by simp [storeIndex, hr]
    rw [exec_of_rowOf hr] at h
    rw [hstore]
    exact performRow_buf (runRow_next h).2
  | none =>
    refine .inr ⟨by simp [storeIndex, hr], ?_⟩
    by_cases hi : i = .reset
    · subst hi
      exact (exec_reset_keeps h).2.2
    · obtain ⟨-, -, hbuf, -⟩ := exec_other_keeps hr hi h
      exact hbuf

/-- A row instruction's three outcomes: it answers, or it is not selected, or no RESET has happened (log entries 5, 10). -/
theorem runRow_answers_or_refuses (r : Row) (b : Byte) (s : State) :
    (∃ t, runRow r b s = .next t) ∨
    (runRow r b s = .refused .feedBeforeReset ∧ s.resetSeen = false ∧ selectedRow s b = r) ∨
    (runRow r b s = .refused .rowNotSelected ∧ selectedRow s b ≠ r) := by
  by_cases hr : selectedRow s b = r
  · rw [runRow_selected hr]
    cases hs : s.resetSeen with
    | true => exact .inl (performRow_completes r b hs)
    | false => exact .inr (.inl ⟨performRow_unreset hs, rfl, hr⟩)
  · exact .inr (.inr ⟨runRow_unselected hr, hr⟩)

/-- A view answers exactly when a frame is valid. -/
theorem requireFrame_answers_or_refuses (s u : State) :
    (∃ t, requireFrame s (.next u) = .next t) ∨
    (requireFrame s (.next u) = .refused .viewWithoutFrame ∧ s.frameValid = false) := by
  cases hv : s.frameValid with
  | true => exact .inl ⟨u, if_pos hv⟩
  | false => exact .inr ⟨requireFrame_refused hv _, rfl⟩

end

/-! #### The buffer primitives -/

section
variable {s : State} {i : Nat}

theorem appended_eq {b : Byte} (hc : s.cfg.wf = true) (hlt : s.cursor < s.cfg.capacity) :
    appended b s = { s with buf := s.buf.write s.cursor b, cursor := s.cursor + 1 } := by
  have hcursor := appended_cursor (b := b) hc hlt
  rw [appended_cursor_eq] at hcursor
  simp [appended, setCursor, hcursor]

theorem clear_eq (s : State) : clear s = { s with cursor := 0 } := by simp [clear, setCursor]

theorem memWrite_of_lt (v : Byte) (hi : i < s.cfg.capacity) : memWrite i v s = some { s with buf := s.buf.write i v } :=
  if_pos hi

theorem memWrite_of_ge (v : Byte) (hi : s.cfg.capacity ≤ i) : memWrite i v s = none := if_neg (Nat.not_lt_of_le hi)

/-- A write at one index is seen at no other, below C or not. -/
theorem memRead_write_other {j : Nat} (v : Byte) (hj : j ≠ i) :
    memRead j { s with buf := s.buf.write i v } = memRead j s := by
  by_cases h : j < s.cfg.capacity
  · rw [memRead_eq_some h, memRead_eq_some (s := { s with buf := s.buf.write i v }) h,
      State.byteAt_write_other (s := s) rfl hj]
  · rw [memRead_eq_none h, memRead_eq_none (s := { s with buf := s.buf.write i v }) h]

end

end Sys2Proof.Machine

namespace Sys2Proof
open Machine

/-- Settles O46: FEED and its rows, RESET, and the rest. -/
theorem frameValidFollowsFeedAndReset : Obligations.FrameValidFollowsFeedAndReset := by
  unfold Obligations.FrameValidFollowsFeedAndReset
  intro s t i h
  refine ⟨fun hr => ?_, ?_, fun hr hi => ?_⟩
  · obtain ⟨r, hr⟩ := Option.isSome_iff_exists.1 hr
    obtain ⟨-, hfeed⟩ := exec_row_next hr h
    exact exec_feed_frameValid hfeed
  · rintro rfl
    rw [exec_reset_next h]
  · obtain ⟨-, -, -, -, hvalid, -⟩ := exec_other_keeps (by simpa using hr) hi h
    exact hvalid

/-- Settles O47: every instruction writes at most one byte, at its store index (`exec_buf`). -/
theorem onlyTheAppendedByteChanges : Obligations.OnlyTheAppendedByteChanges := by
  unfold Obligations.OnlyTheAppendedByteChanges
  intro s t i h
  obtain ⟨a, hstore, hbuf⟩ | ⟨hstore, hbuf⟩ := exec_buf h
  · rw [hstore]
    refine ⟨fun a' ha' => ?_, fun a' ha' => ?_, nofun⟩
    · exact State.byteAt_write_other hbuf fun he => ha' (congrArg some he.symm)
    · obtain rfl : a = a' := Option.some.inj ha'
      exact State.byteAt_write_same hbuf
  · rw [hstore]
    exact ⟨fun a _ => State.byteAt_congr hbuf a, nofun, fun _ => hbuf⟩

/-- Settles O48: FEED and its rows, RESET, and the rest. -/
theorem onlyFeedAndResetWriteTheBlock : Obligations.OnlyFeedAndResetWriteTheBlock := by
  unfold Obligations.OnlyFeedAndResetWriteTheBlock
  intro s t i h
  cases hr : rowOf s i with
  | some r =>
    rw [exec_of_rowOf hr] at h
    obtain ⟨hcfg, hinbox⟩ := performRow_keeps (runRow_next h).2
    refine ⟨hcfg, hinbox, nofun, ?_⟩
    rintro rfl
    cases hr
  | none =>
    by_cases hi : i = .reset
    · subst hi
      obtain ⟨hcfg, hinbox, hbuf⟩ := exec_reset_keeps h
      exact ⟨hcfg, hinbox, fun _ hne => absurd rfl hne, fun _ => hbuf⟩
    · obtain ⟨hstate, hcursor, hbuf, hres, -, hcfg, hinbox⟩ := exec_other_keeps hr hi h
      exact ⟨hcfg, hinbox, fun _ _ => ⟨hstate, hcursor, hbuf, hres⟩, fun _ => hbuf⟩

/-- Settles O49: rows by `runRow_answers_or_refuses`, views by `requireFrame_answers_or_refuses`, and RESET, NOP and READ_RAW
always answer. -/
theorem execAnswersOrRefusesByName : Obligations.ExecAnswersOrRefusesByName := by
  unfold Obligations.ExecAnswersOrRefusesByName
  intro s i
  cases hr : rowOf s i with
  | some r =>
    rw [exec_of_rowOf hr]
    obtain hnext | ⟨hexec, hs, hsel⟩ | ⟨hexec, hsel⟩ := runRow_answers_or_refuses r (rowByte s i) s
    · exact .inl hnext
    · exact .inr (.inr (.inl ⟨hexec, hs, congrArg some hsel.symm⟩))
    · exact .inr (.inr (.inr ⟨hexec, r, rfl, hsel⟩))
  | none =>
    cases i <;> simp only [rowOf, reduceCtorEq] at hr
    case nop => exact .inl ⟨_, exec_nop s⟩
    case reset => exact .inl ⟨_, exec_reset s⟩
    case readRaw k => exact .inl (exec_readRaw_completes k s)
    case viewAddr | viewType | viewDlen | viewData =>
      exact (requireFrame_answers_or_refuses s _).imp_right fun ⟨h, hv⟩ => .inl ⟨h, hv, by simp⟩

/-- Settles O50: the increment of a cursor below C fits the cursor register. -/
theorem appendChecksCapacityFirst : Obligations.AppendChecksCapacityFirst := by
  unfold Obligations.AppendChecksCapacityFirst
  intro s b hc
  have hcap := Config.wf_capacity hc
  refine ⟨append_of_full, fun hlt => ?_, clear_eq s, ?_⟩
  · rw [append_of_lt hlt, appended_eq hc hlt]
  · have hlt : (clear s).cursor < (clear s).cfg.capacity := by simp; omega
    rw [append_of_lt hlt, appended_eq (s := clear s) hc hlt, clear_eq]

/-- Settles O51, by `Memory.read_write_same` and `Memory.read_write_other`. -/
theorem writeIsReadBackAndChangesNoOtherByte : Obligations.WriteIsReadBackAndChangesNoOtherByte := by
  unfold Obligations.WriteIsReadBackAndChangesNoOtherByte
  intro s i v
  constructor
  · intro hi
    refine ⟨memRead_eq_some hi, _, memWrite_of_lt v hi, ?_, fun j hj => memRead_write_other v hj,
      Memory.wf_write s.buf i v⟩
    rw [memRead_eq_some (s := { s with buf := s.buf.write i v }) hi, State.byteAt_write_same rfl]
  · intro hi
    exact ⟨memRead_eq_none (Nat.not_lt_of_le hi), memWrite_of_ge v hi⟩

end Sys2Proof

/-! ### How a frame is left (40_process.md R95) -/

namespace Sys2Proof.Machine

section
variable {s t : State} {b : Byte} {i : Instr}

theorem afterOverflow_state (s : State) : s.afterOverflow.state = s.state ∨
    (s.cfg.ovfPolicy = .toIdle ∧ s.afterOverflow.state = .idle) := by
  cases hp : s.cfg.ovfPolicy with
  | hold => exact .inl (by rw [afterOverflow_hold hp])
  | toIdle => exact .inr ⟨rfl, by rw [afterOverflow_toIdle hp]⟩

/-- What a FEED can do in Data and Escape: below C its row appends, and at C and beyond it overflows. -/
theorem feed_inFrame_next (hst : s.state = .data ∨ s.state = .escape) (h : exec (.feed b) s = .next t) :
    (s.cursor < s.cfg.capacity ∧ rowTarget (selectedRow s b) = some (t.state, t.resCode)) ∨
    (s.cfg.capacity ≤ s.cursor ∧ t = s.afterOverflow) := by
  obtain ⟨hs, -⟩ := performRow_next h
  obtain ⟨d, res, htarget, hne, -⟩ := rowTarget_inFrame (b := b) hst
  rcases Nat.lt_or_ge s.cursor s.cfg.capacity with hlt | hge
  · rw [exec_feed, performRow_accept hs htarget (by rwa [rowBase_of_ne hne])] at h
    cases h
    exact .inl ⟨hlt, htarget⟩
  · rw [feed_overflows_inFrame hs hst hge] at h
    cases h
    exact .inr ⟨hge, rfl⟩

/-- A FEED out of a frame: an overflow under TO_IDLE, or DATA.ETX by a STOP. -/
theorem feed_inFrame_idle (hst : s.state = .data ∨ s.state = .escape) (h : exec (.feed b) s = .next t)
    (hidle : t.state = .idle) :
    (s.cfg.ovfPolicy = .toIdle ∧ t.resCode = .overflow ∧ s.cfg.capacity ≤ s.cursor) ∨
    (s.state = .data ∧ selectedRow s b = .dataEtx ∧ b = s.cfg.stop ∧ t.resCode = .complete) := by
  obtain ⟨-, ht⟩ | ⟨hge, rfl⟩ := feed_inFrame_next hst h
  · obtain ⟨d, res, htarget, -, hback, -⟩ := rowTarget_inFrame (b := b) hst
    obtain ⟨rfl, rfl⟩ : d = t.state ∧ res = t.resCode := by simpa [htarget] using ht
    exact .inr (hback hidle)
  · obtain hkeep | ⟨hp, -⟩ := afterOverflow_state s
    · rw [← hkeep, hidle] at hst
      simp at hst
    · exact .inl ⟨hp, afterOverflow_resCode s, hge⟩

/-- A FEED in a frame ends in Idle or stays in a frame. -/
theorem feed_inFrame_state (hst : s.state = .data ∨ s.state = .escape) (h : exec (.feed b) s = .next t) :
    t.state = .idle ∨ t.state = .data ∨ t.state = .escape := by
  obtain ⟨-, ht⟩ | ⟨-, rfl⟩ := feed_inFrame_next hst h
  · obtain ⟨d, res, htarget, -, -, hd⟩ := rowTarget_inFrame (b := b) hst
    obtain ⟨rfl, -⟩ : d = t.state ∧ res = t.resCode := by simpa [htarget] using ht
    exact hd
  · obtain hkeep | ⟨-, hidle⟩ := afterOverflow_state s
    · rw [hkeep]
      exact .inr hst
    · exact .inl hidle

/-- In a frame any byte but STOP and ESCAPE is data (40_process.md R91, R92, R95). -/
theorem rowTarget_data_byte (hc : s.cfg.wf = true) (hst : s.state = .data ∨ s.state = .escape) (hstop : b ≠ s.cfg.stop)
    (hesc : b ≠ s.cfg.escape) : rowTarget (selectedRow s b) = some (.data, .listening) := by
  rcases hst with hst | hst <;> simp [selectedRow_eq_byteRow hc, hst, byteRow, hstop, hesc, rowTarget]

theorem rowOf_eq_dataEtx (h : rowOf s i = some .dataEtx) : i = .feedDataEtx ∨ i = .feed (rowByte s i) := by
  cases i <;> simp [rowOf, rowByte] at h ⊢

end

end Sys2Proof.Machine

namespace Sys2Proof
open Machine

/-- Settles O28: an instruction that performs a row is a FEED in a frame, RESET is RESET, and any other leaves the state
register. -/
theorem onlyStopOverflowOrResetLeavesAFrame : Obligations.OnlyStopOverflowOrResetLeavesAFrame := by
  unfold Obligations.OnlyStopOverflowOrResetLeavesAFrame
  intro s t i hc hst h
  obtain ⟨-, hps, hpe, hss, hse, -⟩ := Config.wf_distinct hc
  have hreset : i = .reset → t.state = .idle := by
    rintro rfl
    rw [exec_reset_next h]
  refine ⟨fun hidle => ?_, ?_, fun hi hlt => ?_, hreset, fun hdata hi hlt => ?_, fun hp hr hge => ?_⟩
  · cases hr : rowOf s i with
    | some r =>
      obtain ⟨hsel, hfeed⟩ := exec_row_next hr h
      obtain hover | ⟨hdata, hetx, hbyte, hres⟩ := feed_inFrame_idle hst hfeed hidle
      · exact .inr (.inl hover)
      · rw [← hsel, hetx] at hr
        exact .inr (.inr ⟨hdata, hbyte ▸ rowOf_eq_dataEtx hr, hres⟩)
    | none =>
      refine .inl (by_contra fun hi => ?_)
      obtain ⟨hstate, -⟩ := exec_other_keeps hr hi h
      rw [← hstate, hidle] at hst
      simp at hst
  · cases hr : rowOf s i with
    | some r => exact feed_inFrame_state hst (exec_row_next hr h).2
    | none =>
      by_cases hi : i = .reset
      · exact .inl (hreset hi)
      · obtain ⟨hstate, -⟩ := exec_other_keeps hr hi h
        rw [hstate]
        exact .inr hst
  · obtain ⟨b, rfl, hstop, hesc⟩ : ∃ b, i = .feed b ∧ b ≠ s.cfg.stop ∧ b ≠ s.cfg.escape := by
      rcases hi with rfl | rfl
      · exact ⟨_, rfl, hps, hpe⟩
      · exact ⟨_, rfl, hss, hse⟩
    obtain ⟨-, ht⟩ | ⟨hge, -⟩ := feed_inFrame_next hst h
    · rw [rowTarget_data_byte hc hst hstop hesc, Option.some.injEq, Prod.mk.injEq] at ht
      exact ht.1.symm
    · omega
  · subst hi
    have hr : selectedRow s s.cfg.stop = .dataEtx := by simp [selectedRow_eq_byteRow hc, hdata, byteRow]
    obtain ⟨-, ht⟩ | ⟨hge, -⟩ := feed_inFrame_next hst h
    · rw [hr, rowTarget, Option.some.injEq, Prod.mk.injEq] at ht
      exact ht.1.symm
    · omega
  · obtain ⟨r, hr⟩ := Option.isSome_iff_exists.1 hr
    obtain ⟨hlt, -⟩ | ⟨-, rfl⟩ := feed_inFrame_next hst (exec_row_next hr h).2
    · omega
    · rw [afterOverflow_toIdle hp]

end Sys2Proof

/-! ### RESET (42_control.md R130, 70_reset_and_hazards.md R160 to R162) -/

namespace Sys2Proof.Machine

/-- A RESET asks only a well-formed configuration and a canonical buffer of the state before it. -/
theorem blockInv_of_reset {s t : State} (hc : s.cfg.wf = true) (hwf : Memory.wf s.buf = true)
    (hbelow : Memory.below s.cfg.capacity s.buf = true) (h : exec .reset s = .next t) : BlockInv t := by
  obtain rfl := exec_reset_next h
  exact ⟨hc, Nat.zero_le _, hwf, hbelow, rfl, nofun, rfl⟩

/-- What a RESET leaves visible depends on the configuration alone. -/
theorem sameVisible_resetWith {s t : State} (h : exec .reset s = .next t) : SameVisible t (State.resetWith s.cfg) := by
  obtain rfl := exec_reset_next h
  exact ⟨rfl, rfl, rfl, rfl, rfl, rfl⟩

end Sys2Proof.Machine

namespace Sys2Proof
open Machine

/-- Settles O32: the whole state of `execReset`. -/
theorem resetWritesItsValues : Obligations.ResetWritesItsValues := by
  unfold Obligations.ResetWritesItsValues
  intro s
  rw [exec_reset s, ← exec_reset_next (exec_reset s)]

/-- Settles O34: no byte is listed, so each reads as its launch value. -/
theorem resetStateValues : Obligations.ResetStateValues := by
  unfold Obligations.ResetStateValues
  exact ⟨rfl, fun c => ⟨rfl, rfl, rfl, rfl, rfl, rfl, fun _ => rfl⟩⟩

/-- Settles O35: RESET leaves what a fresh block shows, and responses are a function of that. -/
theorem resetFromAnyStateIsFresh : Obligations.ResetFromAnyStateIsFresh := by
  unfold Obligations.ResetFromAnyStateIsFresh
  intro s hc hwf hbelow
  have hsame := sameVisible_resetWith (exec_reset s)
  exact ⟨_, exec_reset s, blockInv_of_reset hc hwf hbelow (exec_reset s), hsame,
    fun bs => (feedIsAFunctionOfVisibleState bs _ _ hsame).1⟩

end Sys2Proof

/-! ### The ports (30_encoding.md R75 to R77) -/

namespace Sys2Proof.Machine

section
variable {s : State} {p : PortsIn}

theorem clockEdge_of_valid (hrst : p.rst = false) (hv : p.inValid = true) : clockEdge p s = exec (.feed p.inByte) s := by
  simp [clockEdge, hrst, hv]

theorem clockEdge_of_idle (hrst : p.rst = false) (hv : p.inValid = false) : clockEdge p s = exec .nop s := by
  simp [clockEdge, hrst, hv]

/-! #### The view's outputs while a frame is valid -/

theorem viewAddrOut_of_frame (n : Nat) (hv : s.frameValid = true) (hc : s.cfg.wf = true) :
    viewAddrOut n s = s.byteAt 3 := by
  have hcap := Config.wf_capacity hc
  rw [viewAddrOut, if_pos hv]
  exact viewByte_of_lt (show 3 < s.cfg.capacity by omega)

theorem viewTypeOut_of_frame (n : Nat) (hv : s.frameValid = true) (hc : s.cfg.wf = true) :
    viewTypeOut n s = s.byteAt 4 := by
  have hcap := Config.wf_capacity hc
  rw [viewTypeOut, if_pos hv]
  exact viewByte_of_lt (show 4 < s.cfg.capacity by omega)

theorem viewKindOut_of_frame (n : Nat) (hv : s.frameValid = true) (hc : s.cfg.wf = true) :
    viewKindOut n s = kindCode (typeKind s.cfg (s.byteAt 4)) := by
  rw [viewKindOut, if_pos hv, viewTypeOut_of_frame n hv hc]

theorem viewDlenOut_of_frame (n : Nat) (hv : s.frameValid = true) : viewDlenOut n s = (logicalData s).length := if_pos hv

/-- `view_dvalid` and `view_dbyte` together are the data byte that VIEW_DATA answers, or none. -/
theorem viewDataOut_of_frame (n : Nat) (k : Index) (hv : s.frameValid = true) :
    (if viewDvalidOut n k s then some (viewDbyteOut n k s) else none) = (logicalData s)[k.toNat]? := by
  rw [viewDvalidOut, viewDbyteOut, viewDlenOut_of_frame n hv, hv, if_pos rfl, indexOf]
  by_cases hk : k.toNat < (logicalData s).length
  · simp [hk]
  · simp [hk]

end

end Sys2Proof.Machine

namespace Sys2Proof
open Machine

/-- Settles O58: the edge is a FEED or a NOP, and each writes `res_valid`. -/
theorem edgeFeedsAndAnswersNextCycle : Obligations.EdgeFeedsAndAnswersNextCycle := by
  unfold Obligations.EdgeFeedsAndAnswersNextCycle
  intro n p q s hrst
  refine ⟨rfl, clockEdge_of_valid hrst, clockEdge_of_idle hrst, fun t ht => ⟨?_, rfl, rfl⟩⟩
  have hedge : clockEdge p s = .next t := ht
  cases hv : p.inValid with
  | true =>
    rw [clockEdge_of_valid hrst hv] at hedge
    exact (exec_feed_response hedge).1
  | false =>
    rw [clockEdge_of_idle hrst hv, exec_nop] at hedge
    cases hedge
    rfl

/-- Settles O59: each port and its transaction read the same bytes, which the invariant puts below C. -/
theorem portsShowTheReadTransactions : Obligations.PortsShowTheReadTransactions := by
  unfold Obligations.PortsShowTheReadTransactions
  intro n p s hs
  obtain ⟨hb, -⟩ := blockInv_iff.1 hs
  have hc := hb.cfg_wf
  refine ⟨rfl, rfl, rfl, fun hraw => ?_, fun hv => ⟨?_, ?_, ?_, ?_⟩, fun hv => ?_⟩
  · have hcap : p.rawIdx.toNat < s.cfg.capacity := hraw.trans_le hb.cursor_le
    have hport : (outputs n p s).rawByte = s.byteAt p.rawIdx.toNat := by
      simp [outputs, rawByteOut, rawRead_below hraw hcap]
    rw [exec_readRaw_below hraw hcap, hport]; rfl
  · rw [exec_viewAddr hv hc, outputs, viewAddrOut_of_frame n hv hc]; rfl
  · exact ⟨_, by rw [exec_viewType hv hc, outputs, viewTypeOut_of_frame n hv hc]; rfl, viewKindOut_of_frame n hv hc⟩
  · rw [exec_viewDlen hv, outputs, viewDlenOut_of_frame n hv]; rfl
  · rw [exec_viewData p.viewK hv, ← viewDataOut_of_frame n p.viewK hv]; rfl
  · simp [outputs, viewDvalidOut, hv]

end Sys2Proof
